-- ==== Sys2Proof/Word.lean ====
section
/-! DEFINITION. The widths of the machine's quantities (spec/00_scope.md R4, R5): every value is an
unsigned integer of a stated width. -/

namespace Sys2Proof

/-- A general register, a timer, a memory cell: 8 bits (R4 `XLEN`, R30). -/
abbrev Byte := BitVec 8

/-- An instruction word, `pc`, `I`, a stack entry: 16 bits (R4 `PCLEN`, `ILEN`, R15, R45). -/
abbrev Word := BitVec 16

/-- A register index: the full 4-bit field, so that every value names a register (R10, R48). -/
abbrev RegIx := BitVec 4

/-- The 12-bit address field `nnn` (R9, R46). -/
abbrev Addr := BitVec 12

/-- The key sample: bit `k` is 1 while key `k` is down (R19). -/
abbrev Keys := BitVec 16

/-- `V[15]`, the flag register `VF` (R11). -/
def vF : RegIx := 15#4

/-- `V[0]`, read implicitly by Jump-indexed (R88). -/
def v0 : RegIx := 0#4

end Sys2Proof
end

