-- ==== Sys2Proof/Syntax.lean ====
section
/-! DEFINITION. The instructions: one constructor per row of spec/opcode_table.json
(spec/30_encoding.md R47 to R57). A constructor carries every bit of the word that its row does not fix, the
ignored ones too (R55 lists them: the `y` of SHR and SHL, the low nibble of groups 5 and 9, and everything below the
opcode in a no-op), so that a word can be rebuilt from its instruction; no meaning reads an ignored field. -/

namespace Sys2Proof

/-- One constructor per row of the opcode table. -/
inductive Instr where
  /-- CLS, `00E0` (R123). -/
  | cls
  /-- RET, `00EE` (R77). -/
  | ret
  /-- JP nnn, `1nnn` (R78). -/
  | jp (nnn : Addr)
  /-- CALL nnn, `2nnn` (R79). -/
  | call (nnn : Addr)
  /-- SE Vx,kk, `3xkk` (R80). -/
  | seImm (x : RegIx) (kk : Byte)
  /-- SNE Vx,kk, `4xkk` (R81). -/
  | sneImm (x : RegIx) (kk : Byte)
  /-- SE Vx,Vy, `5xy·` (R82); the low nibble is ignored (R54). -/
  | seReg (x y : RegIx) (ignored : BitVec 4)
  /-- LD Vx,kk, `6xkk` (R90). -/
  | ldImm (x : RegIx) (kk : Byte)
  /-- ADD Vx,kk, `7xkk` (R92). -/
  | addImm (x : RegIx) (kk : Byte)
  /-- LD Vx,Vy, `8xy0` (R91). -/
  | ldReg (x y : RegIx)
  /-- OR Vx,Vy, `8xy1` (R93). -/
  | orReg (x y : RegIx)
  /-- AND Vx,Vy, `8xy2` (R94). -/
  | andReg (x y : RegIx)
  /-- XOR Vx,Vy, `8xy3` (R95). -/
  | xorReg (x y : RegIx)
  /-- ADD Vx,Vy, `8xy4` (R96). -/
  | addReg (x y : RegIx)
  /-- SUB Vx,Vy, `8xy5` (R97). -/
  | sub (x y : RegIx)
  /-- SHR Vx, `8xy6` (R98); `y` is ignored (R51). -/
  | shr (x y : RegIx)
  /-- SUBN Vx,Vy, `8xy7` (R99). -/
  | subn (x y : RegIx)
  /-- SHL Vx, `8xyE` (R100); `y` is ignored (R51). -/
  | shl (x y : RegIx)
  /-- SNE Vx,Vy, `9xy·` (R83); the low nibble is ignored (R54). -/
  | sneReg (x y : RegIx) (ignored : BitVec 4)
  /-- LD I,nnn, `Annn` (R110). -/
  | ldI (nnn : Addr)
  /-- JP V0,nnn, `Bnnn` (R88). -/
  | jpV0 (nnn : Addr)
  /-- RND Vx,kk, `Cxkk` (R102). -/
  | rnd (x : RegIx) (kk : Byte)
  /-- DRW Vx,Vy,n, `Dxyn` (R122). -/
  | drw (x y : RegIx) (n : BitVec 4)
  /-- SKP Vx, `Ex9E` (R130). -/
  | skp (x : RegIx)
  /-- SKNP Vx, `ExA1` (R131). -/
  | sknp (x : RegIx)
  /-- LD Vx,DT, `Fx07` (R132). -/
  | ldVxDt (x : RegIx)
  /-- LD Vx,K, `Fx0A` (R133). -/
  | ldVxK (x : RegIx)
  /-- LD DT,Vx, `Fx15` (R134). -/
  | ldDtVx (x : RegIx)
  /-- LD ST,Vx, `Fx18` (R135). -/
  | ldStVx (x : RegIx)
  /-- ADD I,Vx, `Fx1E` (R111). -/
  | addI (x : RegIx)
  /-- LD F,Vx, `Fx29` (R112). -/
  | ldF (x : RegIx)
  /-- LD B,Vx, `Fx33` (R114). -/
  | ldB (x : RegIx)
  /-- LD [I],Vx, `Fx55` (R116). -/
  | stRegs (x : RegIx)
  /-- LD Vx,[I], `Fx65` (R117). -/
  | ldRegs (x : RegIx)
  /-- NOP.0: every `0nnn` other than `00E0` and `00EE`, the "SYS addr" form (R50, R75). -/
  | nop0 (nnn : Addr)
  /-- NOP.8: `8xyn` with an unrecognised low nibble (R51, R75). -/
  | nop8 (x y n : BitVec 4)
  /-- NOP.E: `Exkk` with an unrecognised low byte (R52, R75). -/
  | nopE (x : BitVec 4) (kk : Byte)
  /-- NOP.F: `Fxkk` with an unrecognised low byte (R53, R75). -/
  | nopF (x : BitVec 4) (kk : Byte)
  deriving DecidableEq, Repr

end Sys2Proof
end

