-- ==== Sys2Proof/WellFormed.lean ====
section
/-! DEFINITION. Which terms of `Instr` are instructions. Every operand field takes every value of its width (R48), so
the only terms with no word of their own are no-ops whose carried bits are those of a recognised operation
(spec/30_encoding.md R55: the exact lists of words that decode to the no-op). -/

namespace Sys2Proof

/-- R55 (a): the two 0nnn words that are operations, less their `op` digit. -/
def recognised0 : List Addr := [0x0E0#12, 0x0EE#12]

/-- R51: the nine low nibbles of group 8 that are operations. -/
def recognised8 : List (BitVec 4) := [0#4, 1#4, 2#4, 3#4, 4#4, 5#4, 6#4, 7#4, 0xE#4]

/-- R52: the two low bytes of group E that are operations. -/
def recognisedE : List Byte := [0x9E#8, 0xA1#8]

/-- R53: the nine low bytes of group F that are operations. -/
def recognisedF : List Byte :=
  [0x07#8, 0x0A#8, 0x15#8, 0x18#8, 0x1E#8, 0x29#8, 0x33#8, 0x55#8, 0x65#8]

/-- A no-op carries none of the bits of a recognised operation of its group (R55). -/
def Instr.wellFormed : Instr → Bool
  | .nop0 nnn => !(recognised0.contains nnn)
  | .nop8 _ _ n => !(recognised8.contains n)
  | .nopE _ kk => !(recognisedE.contains kk)
  | .nopF _ kk => !(recognisedF.contains kk)
  | .cls | .ret | .jp _ | .call _ | .seImm _ _ | .sneImm _ _ | .seReg _ _ _ | .ldImm _ _ | .addImm _ _
  | .ldReg _ _ | .orReg _ _ | .andReg _ _ | .xorReg _ _ | .addReg _ _ | .sub _ _ | .shr _ _ | .subn _ _
  | .shl _ _ | .sneReg _ _ _ | .ldI _ | .jpV0 _ | .rnd _ _ | .drw _ _ _ | .skp _ | .sknp _ | .ldVxDt _
  | .ldVxK _ | .ldDtVx _ | .ldStVx _ | .addI _ | .ldF _ | .ldB _ | .stRegs _ | .ldRegs _ => true

end Sys2Proof
end

