-- ==== Sys2Proof/Config.lean ====
section
/-! DEFINITION. What is fixed for the machine (the parameters of spec/00_scope.md R4), and what its surroundings supply
freely (spec/10_state.md R24): opaque constants about which nothing can be proved. -/

namespace Sys2Proof

/-! Parameters (R4). The widths are in the types of `State`; the counts 4096, 64, 32, 16 and 15 stand as numbers where
the rules' own pseudocode has them. -/

/-- `PROG_BASE`: the first program byte and the reset value of `pc`. -/
def Config.progBase : Nat := 0x200

/-- `ROM_MAX`: the greatest length of a ROM image, 4096 − 512 bytes. -/
def Config.romMax : Nat := 3584

/-- `CYCLES_PER_FRAME`: nominal, an OPEN parameter of the spec at its default, owned by whoever issues
Step; no rule reads it (R74, decision D16; log 26). -/
def Config.cyclesPerFrame : Nat := 10

/-- `FONT`: the 80 glyph bytes (R17). DESIGN CHOICE: an OPEN parameter of the spec (decision D18), here at the default
the spec prints; assumption log 2. -/
def Config.font : List Byte :=
  [0xF0#8, 0x90#8, 0x90#8, 0x90#8, 0xF0#8] ++
  [0x20#8, 0x60#8, 0x20#8, 0x20#8, 0x70#8] ++
  [0xF0#8, 0x10#8, 0xF0#8, 0x80#8, 0xF0#8] ++
  [0xF0#8, 0x10#8, 0xF0#8, 0x10#8, 0xF0#8] ++
  [0x90#8, 0x90#8, 0xF0#8, 0x10#8, 0x10#8] ++
  [0xF0#8, 0x80#8, 0xF0#8, 0x10#8, 0xF0#8] ++
  [0xF0#8, 0x80#8, 0xF0#8, 0x90#8, 0xF0#8] ++
  [0xF0#8, 0x10#8, 0x20#8, 0x40#8, 0x40#8] ++
  [0xF0#8, 0x90#8, 0xF0#8, 0x90#8, 0xF0#8] ++
  [0xF0#8, 0x90#8, 0xF0#8, 0x10#8, 0xF0#8] ++
  [0xF0#8, 0x90#8, 0xF0#8, 0x90#8, 0x90#8] ++
  [0xE0#8, 0x90#8, 0xE0#8, 0x90#8, 0xE0#8] ++
  [0xF0#8, 0x80#8, 0x80#8, 0x80#8, 0xF0#8] ++
  [0xE0#8, 0x90#8, 0x90#8, 0x90#8, 0xE0#8] ++
  [0xF0#8, 0x80#8, 0xF0#8, 0x80#8, 0xF0#8] ++
  [0xF0#8, 0x80#8, 0xF0#8, 0x80#8, 0x80#8]

/-! Free values: what the surroundings supply once the scheduled events are used up, as functions of a plain counter
(`State.clock`). They have no body: every statement holds whatever they are. Assumption log 4. -/

/-- `key_in[15:0]` as sampled by the `n`-th unscheduled Step (R60, R62): any value. -/
opaque Config.keyIn : Nat → Keys

/-- `rnd_in[7:0]` as sampled by the `n`-th unscheduled Step (R60, R102, decision D17): a fresh draw, under no law
(log 21). -/
opaque Config.rndIn : Nat → Byte

/-- How many TimerTicks fall just before the `n`-th unscheduled Step (R73, decision D15): any number. -/
opaque Config.ticksBefore : Nat → Nat

end Sys2Proof
end

