-- ==== Sys2Proof/Machine/State.lean ====
section
/-! DEFINITION. The state of the machine (spec/10_state.md), as plain data, with the events still to come from outside
(spec/40_cycle.md R60), the state right after reset (spec/70_reset_and_hazards.md R160), and the reasons a step stops. -/

namespace Sys2Proof.Machine

/-- The three events, the only things that change state (R60), each with the inputs it samples. -/
inductive Event where
  /-- `Reset(rom)`, issued by the host (R160, R161). -/
  | reset (rom : List Byte)
  /-- `Step`, with `key_in[15:0]` and `rnd_in[7:0]` as they stand during it (R61, R62, R102). -/
  | step (keyIn : Keys) (rndIn : Byte)
  /-- `TimerTick`, issued by the 60 Hz strobe (R72). -/
  | timerTick
  deriving DecidableEq, Repr

/-- The four values of the 2-bit fault latch (R21, R140). -/
inductive FaultCode where
  | none
  | outOfRange
  | stackOverflow
  | stackUnderflow
  deriving DecidableEq, Repr

/-- The contents of memory that differ from the reset contents: (address, byte), addresses strictly rising, no byte
equal to what an unlisted address reads as (`Mem.initial`), every address below 4096. -/
abbrev Mem := List Host.Cell

/-- The display bitmap, row by row: bit `c` of entry `r` is the pixel `fb[64·r + c]` at column `c`, row `r` (R18;
DESIGN CHOICE, log 27). -/
abbrev Bitmap := Vector (BitVec 64) 32

/-- Every pixel off (R18, R123). -/
def Bitmap.blank : Bitmap := Vector.replicate 32 0#64

/-- All mutable state (R10 to R21), then the model's own fields: the step's outputs and inputs, and the events to come
(R24: inputs and outputs are not state of the machine; they stand here because a step is a function of the state). -/
structure State where
  /-- `V[0]` to `V[15]` (R10). -/
  v : Vector Byte 16
  /-- `I` (R12). -/
  i : Word
  /-- `pc` (R13). -/
  pc : Word
  /-- `sp`: the number of return addresses held (R14). -/
  sp : Byte
  /-- `stack[0]` to `stack[15]` (R15). -/
  stack : Vector Word 16
  /-- `DT` (R16). -/
  dt : Byte
  /-- `ST` (R16); also the output `st_out`. -/
  st : Byte
  /-- `mem[0]` to `mem[4095]` (R17). -/
  mem : Mem
  /-- `fb[0]` to `fb[2047]` (R18). -/
  fb : Bitmap
  /-- `K`: bit `k` is `K[k]` (R19). -/
  keys : Keys
  /-- `wait` (R20); also the output `wait_out`. -/
  wait : Bool
  /-- `wait_dest` (R20). -/
  waitDest : RegIx
  /-- `fault` (R21). -/
  fault : FaultCode
  /-- MODEL'S OWN: the output `redraw` as the last event left it (R67). Assumption log 5. -/
  redraw : Bool
  /-- MODEL'S OWN: the input `rnd_in` as the last Step found it (R102). Assumption log 5. -/
  rndIn : Byte
  /-- MODEL'S OWN: the events to come, the next one first (R60, R73). Assumption log 3. -/
  events : List Event
  /-- MODEL'S OWN: how many unscheduled Steps have been taken; it makes the free inputs fresh. Assumption log 4. -/
  clock : Nat
  deriving DecidableEq, Repr

/-- Why a step stops the model. The spec's own three faults are no stop: they are latched in `State.fault` and leave the
machine Halted (R8, R141, R145). -/
inductive Fault where
  /-- Raised by RET alone, where `sp` exceeds 16, so that `stack[sp − 1]` does not exist (R14, R15). No run reaches such
  a state: `sp ≤ 15` is an invariant (R14). Safe. Assumption log 8. -/
  | stackSlotAbsent (sp : Byte)
  deriving DecidableEq, Repr

/-- Why a step has no meaning. -/
inductive Refusal where
  /-- An instruction with no meaning yet; no arm of `exec` raises it. Safe. -/
  | notModelled (mnemonic : String)
  /-- Raised by the event `Reset(rom)` alone, for an image longer than 3584 bytes: "`Reset` is simply not defined for
  one" (R161). Safe. Assumption log 9. -/
  | oversizedRom (length : Nat)
  deriving DecidableEq, Repr

/-- The machine right after `Reset` of an empty image (R160, the table that closes spec/10_state.md). The model's own
fields start empty: no output pulse, no event scheduled (DESIGN CHOICE, log 14). `I`, the stack slots, `K`, the wait latch
and `fault` are 0 by the spec's decision D20 (UNVERIFIED, log 12). How a program comes to run: log 28. -/
def State.reset : State where
  v := Vector.replicate 16 0#8
  i := 0#16
  pc := 0x0200#16
  sp := 0#8
  stack := Vector.replicate 16 0#16
  dt := 0#8
  st := 0#8
  mem := []
  fb := Bitmap.blank
  keys := 0#16
  wait := false
  waitDest := 0#4
  fault := .none
  redraw := false
  rndIn := 0#8
  events := []
  clock := 0

end Sys2Proof.Machine
end

