-- ==== Sys2Proof/Machine/Ops.lean ====
section
/-! DEFINITION. The named operations over memory, registers, the display, the keys and the timers, and raising a fault
(spec/00_scope.md R6 to R8, spec/20_memory.md, spec/40_cycle.md). -/

namespace Sys2Proof.Machine

/-- What an instruction or a step answers. -/
abbrev Out := Host.Outcome State Fault Refusal

/-! ## Memory (R7, R17, R30 to R36) -/

/-- What an address that the memory list does not name reads as: the reset contents with an empty image, `FONT` at
0x000 to 0x04F and 0x00 above it (R17, decision D20; assumption log 1). -/
def Mem.initial (a : Nat) : Byte := Config.font.getD a 0#8

/-- One byte of memory, for an address below 4096: the guard is in `readBlock`, `writeBlock` and `readWord`. -/
def Mem.peek : Mem → Nat → Byte
  | [], a => Mem.initial a
  | (k, v) :: m, a => if a < k then Mem.initial a else if a = k then v else Mem.peek m a

/-- A new entry in front of a list, unless the byte is what the address reads as anyway. -/
def Mem.entry (a : Nat) (b : Byte) (m : Mem) : Mem := if b = Mem.initial a then m else (a, b) :: m

/-- Store one byte, for an address below 4096, keeping the canonical form. -/
def Mem.poke : Mem → Nat → Byte → Mem
  | [], a, b => Mem.entry a b []
  | (k, v) :: m, a, b =>
    if a < k then Mem.entry a b ((k, v) :: m)
    else if a = k then Mem.entry a b m
    else (k, v) :: Mem.poke m a b

/-- Store consecutive bytes from an address upward. -/
def Mem.pokes : Mem → Nat → List Byte → Mem
  | m, _, [] => m
  | m, a, b :: bs => Mem.pokes (Mem.poke m a b) (a + 1) bs

/-- The bytes at `a`, `a+1`, …: `n` of them, lowest address first. -/
def Mem.peeks (m : Mem) (a : Nat) : Nat → List Byte
  | 0 => []
  | n + 1 => m.peek a :: m.peeks (a + 1) n

/-- `MemRead` of a block, the whole range checked before any access, the address never reduced (R7, R35, R113): `none`
stands for OutOfRange. A block of no bytes reads nothing and cannot fail (R122, `n = 0`). -/
def Mem.readBlock (m : Mem) (a n : Nat) : Option (List Byte) :=
  if n = 0 ∨ a + n ≤ 4096 then some (m.peeks a n) else none

/-- `MemWrite` of a block, the whole range checked before the first write (R7, R35, R113, R141): `none` stands for
OutOfRange. -/
def Mem.writeBlock (m : Mem) (a : Nat) (bs : List Byte) : Option Mem :=
  if a + bs.length ≤ 4096 then some (m.pokes a bs) else none

/-- `MemRead(a, 2)`, most significant byte first (R7, R32). -/
def Mem.readWord (m : Mem) (a : Nat) : Option Word :=
  if a + 1 < 4096 then some (m.peek a ++ m.peek (a + 1)) else none

/-- Memory that differs from the reset contents by the bytes of an image placed at `a` (R161). -/
def Mem.image : Nat → List Byte → Mem
  | _, [] => []
  | a, b :: bs => Mem.entry a b (Mem.image (a + 1) bs)

/-- The canonical form: addresses strictly rising and below 4096, no byte equal to what an unlisted address reads as. -/
abbrev Mem.wf (m : Mem) : Prop :=
  m.Pairwise (fun c d => c.1 < d.1) ∧ ∀ c ∈ m, c.1 < 4096 ∧ c.2 ≠ Mem.initial c.1

/-! ## Registers (R6, R10) -/

/-- `V[x]`. -/
def State.reg (s : State) (x : RegIx) : Byte := s.v[x.toNat]'x.isLt

/-- `V[x] <- b`. -/
def State.setReg (s : State) (x : RegIx) (b : Byte) : State := { s with v := s.v.set x.toNat b x.isLt }

/-- `V[x], V[x+1], … <- ` the bytes of a list, in order, none beyond `V[15]`. -/
def State.setRegsFrom (s : State) (x : Nat) : List Byte → State
  | [] => s
  | b :: bs => if x < 16 then (s.setReg (BitVec.ofNat 4 x) b).setRegsFrom (x + 1) bs else s

/-- `V[0]`, `V[1]`, …: the first `n` registers. -/
def State.regsBelow (s : State) (n : Nat) : List Byte := (List.range n).map fun r => s.reg (BitVec.ofNat 4 r)

/-- `pc <- (pc + n) mod 65536` (R13, R66). -/
def State.advance (s : State) (n : Word) : State := { s with pc := s.pc + n }

/-! ## Faults (R8, R141) -/

/-- `raise Fault(c)`: `fault` takes the code and nothing else changes; `pc` stays at the instruction. There is no
handler and no saved state, and no return but Reset (R145, R148, R149, decision D9; UNVERIFIED, log 11). -/
def raise (c : FaultCode) (s : State) : Out := .next { s with fault := c }

/-- The 2-bit code of a fault, as `fault_out` shows it (R21, R60, R140). -/
def FaultCode.code : FaultCode → BitVec 2
  | .none => 0#2
  | .outOfRange => 1#2
  | .stackOverflow => 2#2
  | .stackUnderflow => 3#2

/-- Halted: `fault ≠ 0` (R23, R145). -/
def State.halted (s : State) : Bool := s.fault != .none

/-! ## The display (R18, R120 to R122) -/

/-- `fbaddr(cx, cy)` (R120; row 0 the top row: UNVERIFIED, log 22). -/
def fbaddr (cx cy : Nat) : Nat := 64 * (cy % 32) + cx % 64

/-- `fb[p]`, for `p` below 2048 (R18). -/
def Bitmap.pixelAt (fb : Bitmap) (p : Nat) : Bool :=
  if h : p < 2048 then (fb[p / 64]'(by omega)).getLsbD (p % 64) else false

/-- `fb[p] <- fb[p] XOR 1`, for `p` below 2048 (R122). -/
def Bitmap.flipAt (fb : Bitmap) (p : Nat) : Bitmap :=
  if h : p < 2048 then
    fb.set (p / 64) ((fb[p / 64]'(by omega)) ^^^ BitVec.twoPow 64 (p % 64)) (by omega)
  else fb

/-- The bitmap being drawn on, and `hit`: whether a pixel that was on has been toggled off (R122). -/
abbrev Canvas := Bitmap × Bool

/-- Toggle the pixel `p` and note a collision (R122). -/
def Canvas.toggle (c : Canvas) (p : Nat) : Canvas := (c.1.flipAt p, c.2 || c.1.pixelAt p)

/-- The columns `c` still to come of one sprite row, bit 7 leftmost (R121, R122; UNVERIFIED, log 22). -/
def Canvas.drawCols (x0 y : Nat) (b : Byte) : List Nat → Canvas → Canvas
  | [], cv => cv
  | c :: cs, cv =>
    Canvas.drawCols x0 y b cs (if b.getLsbD (7 - c) then cv.toggle (fbaddr (x0 + c) y) else cv)

/-- The rows still to come of a sprite, downward from row `y` (R121, R122). -/
def Canvas.drawRows (x0 : Nat) : Nat → List Byte → Canvas → Canvas
  | _, [], cv => cv
  | y, b :: bs, cv => Canvas.drawRows x0 (y + 1) bs (Canvas.drawCols x0 y b [0, 1, 2, 3, 4, 5, 6, 7] cv)

/-- The `fb` read port: the pixel at column `cx`, row `cy` (R60, R120). -/
def State.pixel (s : State) (cx cy : Nat) : Bool := s.fb.pixelAt (fbaddr cx cy)

/-! ## Keys (R19, R62, R70, R71) -/

/-- `K[k]`. -/
def State.key (s : State) (k : Nat) : Bool := s.keys.getLsbD k

/-- Key sampling, step (2) of a Step, with the random byte that the same Step may read (R62, R102). -/
def State.sample (s : State) (keyIn : Keys) (rndIn : Byte) : State := { s with keys := keyIn, rndIn := rndIn }

/-- The least index in 0..15 whose bit is 1, scanning upward (R70, R71, decision D14; UNVERIFIED, log 19). -/
def lowestKey (k : Keys) : Option Nat := (List.range 16).find? fun j => k.getLsbD j

/-- `rising`: the keys up at the last sample and down now (R70). -/
def rising (old new : Keys) : Keys := new &&& ~~~old

/-- The AwaitingKey poll, after the sample; `old` is the sample before it (R70). -/
def State.poll (old : Keys) (s : State) : State :=
  if rising old s.keys = 0#16 then s
  else
    match lowestKey s.keys with
    | some k => { (s.setReg s.waitDest (BitVec.ofNat 8 k)).advance 2#16 with wait := false }
    | none => s

/-! ## Timers (R16, R72, R73) -/

/-- A timer less one, floored at zero. -/
def countDown (b : Byte) : Byte := if b = 0#8 then 0#8 else b - 1#8

/-- TimerTick: both timers count down, unless the machine is AwaitingKey or Halted (R72, conflict C7,
decision D15; UNVERIFIED, log 20). -/
def State.timerTick (s : State) : State :=
  if s.halted || s.wait then s else { s with dt := countDown s.dt, st := countDown s.st }

/-- A timer after `n` counts: `n` less, floored at zero. -/
def countDownBy (n : Nat) (b : Byte) : Byte := if b = 0#8 then 0#8 else BitVec.ofNat 8 (b.toNat - n)

/-- `n` TimerTicks with no other event between them (R73), in one piece, so that a step with a free number of ticks
before it can still be evaluated. -/
def State.ticks (n : Nat) (s : State) : State :=
  if s.halted || s.wait then s else { s with dt := countDownBy n s.dt, st := countDownBy n s.st }

/-! ## Fetch and reset (R63, R160, R161) -/

/-- The instruction word at `pc`; `none` stands for OutOfRange (R63). No check below 0x200
(decision D21; UNVERIFIED, log 23). -/
def State.fetch (s : State) : Option Word := s.mem.readWord s.pc.toNat

/-- `Reset(rom)`: every piece of state at its reset value, the image at 0x200; the events still to come and the count
of free inputs are the surroundings' and stay. An image longer than 3584 bytes is refused (R160, R161). -/
def doReset (rom : List Byte) (s : State) : Out :=
  if rom.length ≤ Config.romMax then
    .next { State.reset with mem := Mem.image Config.progBase rom, events := s.events, clock := s.clock }
  else .refused (.oversizedRom rom.length)

/-! ## Output ports (R60) -/

/-- `fault_out[1:0]`. -/
def State.faultOut (s : State) : BitVec 2 := s.fault.code

/-- `st_out[7:0]`. -/
def State.stOut (s : State) : Byte := s.st

/-- `wait_out`. -/
def State.waitOut (s : State) : Bool := s.wait

end Sys2Proof.Machine
end

