-- ==== Sys2Proof/Machine/Operands.lean ====
section
/-! DEFINITION. Operand forms: addresses taken from an instruction or from `I`, the key index, the BCD digits
(spec/30_encoding.md R48, spec/43_index_memory.md, spec/45_keys_timers.md R136). -/

namespace Sys2Proof.Machine

/-- `zext_16(nnn)` (R48). -/
def addrOf (nnn : Addr) : Word := nnn.setWidth 16

/-- `zext_16(V[x])` (R88, R111). -/
def State.regWide (s : State) (x : RegIx) : Word := (s.reg x).setWidth 16

/-- The address `I` as a natural number, never reduced (R113, decision D10; UNVERIFIED, log 17). -/
def State.base (s : State) : Nat := s.i.toNat

/-- `V[x] × 5`, exact in 16 bits (R112, decision D25; UNVERIFIED, log 25). -/
def fontAddr (b : Byte) : Word := b.setWidth 16 * 5#16

/-- The digits of `v`: hundreds, tens, units (R114). -/
def bcdDigits (v : Byte) : List Byte :=
  [BitVec.ofNat 8 (v.toNat / 100), BitVec.ofNat 8 (v.toNat / 10 % 10), BitVec.ofNat 8 (v.toNat % 10)]

/-- The key index in `V[x]`; `none`, for 16 or more, stands for OutOfRange (R136, decision D13; UNVERIFIED,
log 18). -/
def State.keyIndex (s : State) (x : RegIx) : Option Nat :=
  if (s.reg x).toNat < 16 then some (s.reg x).toNat else none

end Sys2Proof.Machine
end

