-- ==== Sys2Proof/Machine/Control.lean ====
section
/-! DEFINITION. Control transfer: no-op, jump, call, return, skips, jump-indexed (spec/41_control_transfer.md). -/

namespace Sys2Proof.Machine

/-- The end of every instruction that only falls through: `pc <- (pc + 2) mod 65536` (R66). -/
def fallThrough (s : State) : Out := .next (s.advance 2#16)

/-- `pc` by 4 if the condition holds, else by 2; what is skipped is not looked at (R66, R84). -/
def skipIf (c : Bool) (s : State) : Out := .next (s.advance (if c then 4#16 else 2#16))

/-- NOP.0 (R75). -/
def execNop0 (_nnn : Addr) (s : State) : Out := fallThrough s

/-- NOP.8 (R75). -/
def execNop8 (_x _y _n : BitVec 4) (s : State) : Out := fallThrough s

/-- NOP.E (R75). -/
def execNopE (_x : BitVec 4) (_kk : Byte) (s : State) : Out := fallThrough s

/-- NOP.F (R75). -/
def execNopF (_x : BitVec 4) (_kk : Byte) (s : State) : Out := fallThrough s

/-- RET (R77): StackUnderflow where `sp = 0`; else `pc` is the popped address plus 2, and the slot keeps its contents.
A `sp` above 16, which no run reaches (R14), names a slot that does not exist. -/
def execRet (s : State) : Out :=
  if s.sp = 0#8 then raise .stackUnderflow s
  else
    match s.stack[s.sp.toNat - 1]? with
    | some a => .next { s with pc := a + 2#16, sp := s.sp - 1#8 }
    | none => .fault (.stackSlotAbsent s.sp)

/-- JP nnn (R78). -/
def execJp (nnn : Addr) (s : State) : Out := .next { s with pc := addrOf nnn }

/-- CALL nnn (R79): pushes its own address; StackOverflow "if pointer would exceed 15" (decision D8; UNVERIFIED, log 16). -/
def execCall (nnn : Addr) (s : State) : Out :=
  if h : s.sp.toNat < 15 then
    .next { s with stack := s.stack.set s.sp.toNat s.pc (by omega), sp := s.sp + 1#8, pc := addrOf nnn }
  else raise .stackOverflow s

/-- SE Vx,kk (R80). -/
def execSeImm (x : RegIx) (kk : Byte) (s : State) : Out := skipIf (s.reg x == kk) s

/-- SNE Vx,kk (R81). -/
def execSneImm (x : RegIx) (kk : Byte) (s : State) : Out := skipIf (s.reg x != kk) s

/-- SE Vx,Vy (R82); the low nibble is ignored (R54). -/
def execSeReg (x y : RegIx) (_ignored : BitVec 4) (s : State) : Out := skipIf (s.reg x == s.reg y) s

/-- SNE Vx,Vy (R83); the low nibble is ignored (R54). -/
def execSneReg (x y : RegIx) (_ignored : BitVec 4) (s : State) : Out := skipIf (s.reg x != s.reg y) s

/-- JP V0,nnn (R88): the sum is kept to 16 bits and not masked to 12 (decision D12; UNVERIFIED, log 17). -/
def execJpV0 (nnn : Addr) (s : State) : Out := .next { s with pc := addrOf nnn + s.regWide v0 }

end Sys2Proof.Machine
end

