-- ==== Sys2Proof/Machine/Flags.lean ====
section
/-! DEFINITION. What the flag register receives, and the order in which a result and its flag are written
(spec/10_state.md R11, spec/42_alu.md R96 to R103). -/

namespace Sys2Proof.Machine

/-- A flag is stored as 0x00 or 0x01 into all 8 bits (R11). -/
def flagByte (f : Bool) : Byte := if f then 0x01#8 else 0x00#8

/-- The 9-bit sum overflowed 8 bits (R96, R103). -/
def carryOut (a b : Byte) : Bool := decide (256 ≤ a.toNat + b.toNat)

/-- The flag of `a − b`: 1 exactly when `a > b`, so 0 when they are equal (R97, R99, R103). -/
def strictlyGreater (a b : Byte) : Bool := decide (b.toNat < a.toNat)

/-- The bit a right shift loses (R98). -/
def lowBit (a : Byte) : Bool := a.getLsbD 0

/-- The bit a left shift loses (R100). -/
def highBit (a : Byte) : Bool := a.getLsbD 7

/-- Result first, flag second: the flag remains where `x = 15` (R96, R101, decision D7; UNVERIFIED, log 15). -/
def State.setResultThenFlag (s : State) (x : RegIx) (r : Byte) (f : Bool) : State :=
  (s.setReg x r).setReg vF (flagByte f)

/-- Flag first, result second: the result remains where `x = 15` (R97 to R101, decision D7; UNVERIFIED, log 15). -/
def State.setFlagThenResult (s : State) (x : RegIx) (r : Byte) (f : Bool) : State :=
  (s.setReg vF (flagByte f)).setReg x r

end Sys2Proof.Machine
end

