-- ==== Sys2Proof/Machine/Alu.lean ====
section
/-! DEFINITION. Register loads, arithmetic, logic, shifts and random (spec/42_alu.md). Operands are read before any
write (R101); a result and its flag are written in the order of the rule (log 15). What a rule does not list is not
written (decision D22; UNVERIFIED, log 24). -/

namespace Sys2Proof.Machine

/-- LD Vx,kk (R90). -/
def execLdImm (x : RegIx) (kk : Byte) (s : State) : Out := fallThrough (s.setReg x kk)

/-- LD Vx,Vy (R91). -/
def execLdReg (x y : RegIx) (s : State) : Out := fallThrough (s.setReg x (s.reg y))

/-- ADD Vx,kk (R92): wraps at 256, no flag. -/
def execAddImm (x : RegIx) (kk : Byte) (s : State) : Out := fallThrough (s.setReg x (s.reg x + kk))

/-- OR Vx,Vy (R93): `VF` unchanged. -/
def execOrReg (x y : RegIx) (s : State) : Out := fallThrough (s.setReg x (s.reg x ||| s.reg y))

/-- AND Vx,Vy (R94): `VF` unchanged. -/
def execAndReg (x y : RegIx) (s : State) : Out := fallThrough (s.setReg x (s.reg x &&& s.reg y))

/-- XOR Vx,Vy (R95): `VF` unchanged. -/
def execXorReg (x y : RegIx) (s : State) : Out := fallThrough (s.setReg x (s.reg x ^^^ s.reg y))

/-- ADD Vx,Vy (R96): the carry is written second. -/
def execAddReg (x y : RegIx) (s : State) : Out :=
  fallThrough (s.setResultThenFlag x (s.reg x + s.reg y) (carryOut (s.reg x) (s.reg y)))

/-- SUB Vx,Vy (R97): the flag is written first. -/
def execSub (x y : RegIx) (s : State) : Out :=
  fallThrough (s.setFlagThenResult x (s.reg x - s.reg y) (strictlyGreater (s.reg x) (s.reg y)))

/-- SHR Vx (R98): the flag is written first; `y` is ignored. -/
def execShr (x _y : RegIx) (s : State) : Out :=
  fallThrough (s.setFlagThenResult x (s.reg x >>> 1) (lowBit (s.reg x)))

/-- SUBN Vx,Vy (R99): the flag is written first. -/
def execSubn (x y : RegIx) (s : State) : Out :=
  fallThrough (s.setFlagThenResult x (s.reg y - s.reg x) (strictlyGreater (s.reg y) (s.reg x)))

/-- SHL Vx (R100): the flag is written first; `y` is ignored. -/
def execShl (x _y : RegIx) (s : State) : Out :=
  fallThrough (s.setFlagThenResult x (s.reg x <<< 1) (highBit (s.reg x)))

/-- RND Vx,kk (R102): the byte sampled by this Step, under no law. -/
def execRnd (x : RegIx) (kk : Byte) (s : State) : Out := fallThrough (s.setReg x (s.rndIn &&& kk))

end Sys2Proof.Machine
end

