-- ==== Sys2Proof/Machine/Display.lean ====
section
/-! DEFINITION. Display instructions (spec/44_display.md). Both raise the redraw pulse (R67). -/

namespace Sys2Proof.Machine

/-- CLS (R123): `VF` unchanged. -/
def execCls (s : State) : Out := fallThrough { s with fb := Bitmap.blank, redraw := true }

/-- DRW Vx,Vy,n (R122): the coordinates are the old registers, the sprite's range is checked first, and the collision
flag is written last. `n = 0` draws no row, reads no byte and cannot fault (decision D24; UNVERIFIED, log 25). The second of two
identical draws: log 10. -/
def execDrw (x y : RegIx) (n : BitVec 4) (s : State) : Out :=
  match s.mem.readBlock s.base n.toNat with
  | some rows =>
    let cv := Canvas.drawRows ((s.reg x).toNat % 64) ((s.reg y).toNat % 32) rows (s.fb, false)
    fallThrough ({ s with fb := cv.1, redraw := true }.setReg vF (flagByte cv.2))
  | none => raise .outOfRange s

end Sys2Proof.Machine
end

