-- ==== Sys2Proof/Machine/IndexMem.lean ====
section
/-! DEFINITION. Index register and memory instructions (spec/43_index_memory.md). The whole range is checked before the
first write (R113, R141); `I` is never changed by an access (R115, decision D22; UNVERIFIED,
log 24). A store reaches every address, the font included (decision D23; UNVERIFIED, log 23). -/

namespace Sys2Proof.Machine

/-- LD I,nnn (R110). -/
def execLdI (nnn : Addr) (s : State) : Out := fallThrough { s with i := addrOf nnn }

/-- ADD I,Vx (R111): wraps at 65536, no flag, no fault. -/
def execAddI (x : RegIx) (s : State) : Out := fallThrough { s with i := s.i + s.regWide x }

/-- LD F,Vx (R112): the full byte times 5. -/
def execLdF (x : RegIx) (s : State) : Out := fallThrough { s with i := fontAddr (s.reg x) }

/-- LD B,Vx (R114). -/
def execLdB (x : RegIx) (s : State) : Out :=
  match s.mem.writeBlock s.base (bcdDigits (s.reg x)) with
  | some m => fallThrough { s with mem := m }
  | none => raise .outOfRange s

/-- LD [I],Vx (R116): `V[0]` to `V[x]`, `x` being the field itself (R115). -/
def execStRegs (x : RegIx) (s : State) : Out :=
  match s.mem.writeBlock s.base (s.regsBelow (x.toNat + 1)) with
  | some m => fallThrough { s with mem := m }
  | none => raise .outOfRange s

/-- LD Vx,[I] (R117). -/
def execLdRegs (x : RegIx) (s : State) : Out :=
  match s.mem.readBlock s.base (x.toNat + 1) with
  | some bs => fallThrough (s.setRegsFrom 0 bs)
  | none => raise .outOfRange s

end Sys2Proof.Machine
end

