-- ==== Sys2Proof/Machine/KeysTimers.lean ====
section
/-! DEFINITION. Key and timer instructions (spec/45_keys_timers.md). -/

namespace Sys2Proof.Machine

/-- SKP Vx (R130): the level of the key, as sampled by this Step (R136). -/
def execSkp (x : RegIx) (s : State) : Out :=
  match s.keyIndex x with
  | some k => skipIf (s.key k) s
  | none => raise .outOfRange s

/-- SKNP Vx (R131). -/
def execSknp (x : RegIx) (s : State) : Out :=
  match s.keyIndex x with
  | some k => skipIf (!s.key k) s
  | none => raise .outOfRange s

/-- LD Vx,K (R133): only arms the latch; `pc` is not advanced and `V[x]` is not written. -/
def execLdVxK (x : RegIx) (s : State) : Out := .next { s with wait := true, waitDest := x }

/-- LD Vx,DT (R132). -/
def execLdVxDt (x : RegIx) (s : State) : Out := fallThrough (s.setReg x s.dt)

/-- LD DT,Vx (R134). -/
def execLdDtVx (x : RegIx) (s : State) : Out := fallThrough { s with dt := s.reg x }

/-- LD ST,Vx (R135). -/
def execLdStVx (x : RegIx) (s : State) : Out := fallThrough { s with st := s.reg x }

end Sys2Proof.Machine
end

