-- ==== Sys2Proof/Machine/Cycle.lean ====
section
/-! DEFINITION. The cycle: what each event does, and which event comes next (spec/40_cycle.md R60 to R73). -/

namespace Sys2Proof.Machine

/-- Fetch, decode and execute one instruction, step (4) of a Step: a fetch outside memory raises OutOfRange (R61, R63
to R66). -/
def runInstr (s : State) : Out :=
  match s.fetch with
  | some w => exec (decode w) s
  | none => raise .outOfRange s

/-- The event `Step` (R61): nothing where the machine is Halted (R69); else sample the keys, then poll them if
AwaitingKey (R70), or run one instruction. -/
def coreStep (keyIn : Keys) (rndIn : Byte) (s : State) : Out :=
  if s.halted then .next s
  else if s.wait then .next ((s.sample keyIn rndIn).poll s.keys)
  else runInstr (s.sample keyIn rndIn)

/-- One event, on a state whose `redraw` is down: the pulse lasts one Step (R67). -/
def perform (e : Event) (s : State) : Out :=
  match e with
  | .reset rom => doReset rom s
  | .step keyIn rndIn => coreStep keyIn rndIn s
  | .timerTick => .next s.timerTick

/-- The next scheduled event. Where none is scheduled, the surroundings are free (R73; assumption log 4): some number of
TimerTicks, then a Step, with inputs about which nothing is known. -/
def nextEvent (s : State) : Out :=
  match s.events with
  | e :: es => perform e { s with events := es, redraw := false }
  | [] =>
    coreStep (Config.keyIn s.clock) (Config.rndIn s.clock)
      (({ s with clock := s.clock + 1, redraw := false } : State).ticks (Config.ticksBefore s.clock))

/-- The state in which the very next event is a Step that fetches and runs the word `w`: its two bytes at `pc`
(R32), the machine Running, and a Step first among the events. A `pc` that names no word of memory (R63) is replaced by
0x200. Assumption log 6. -/
def readyToRun (s : State) (w : Word) : State :=
  let pc := if s.pc.toNat + 1 < 4096 then s.pc else 0x0200#16
  { s with
    pc := pc
    mem := s.mem.pokes pc.toNat (bytesOfWord w)
    wait := false
    fault := .none
    events :=
      match s.events with
      | .step k r :: es => .step k r :: es
      | es => .step 0#16 0#8 :: es }

end Sys2Proof.Machine
end

