-- ==== Sys2Proof/Machine/Step.lean ====
section
/-! DEFINITION. One step of the machine: one event (spec/40_cycle.md R60). -/

namespace Sys2Proof.Machine

/-- The next event and all its effects (R60, R61). -/
def step (s : State) : Host.Outcome State Fault Refusal := nextEvent s

/-- `s` with the instruction whose `nbits` bits are `w` stored where `step` fetches next, so that the very next step
runs it; bits at and above `nbits` are 0. -/
def State.withFetchWord (s : State) (nbits w : Nat) : State := readyToRun s (BitVec.ofNat 16 (w % 2 ^ nbits))

end Sys2Proof.Machine
end

