-- ==== Sys2Proof/Safety.lean ====
section
/-! DEFINITION. The terms in which claims about the machine are made: its three conditions, what an instruction may
change, where it faults, where `pc` goes, the invariant, and what the surroundings owe the machine. -/

namespace Sys2Proof.Machine

/-! ## Running, AwaitingKey, Halted (R23), and the end of a run (R172) -/

/-- Running: no fault latched, no key awaited (R23). -/
abbrev State.Running (s : State) : Prop := s.fault = .none ∧ s.wait = false

/-- AwaitingKey (R23). -/
abbrev State.AwaitingKey (s : State) : Prop := s.fault = .none ∧ s.wait = true

/-- Halted: never a successful end of a run (R23, R145). -/
abbrev State.Halted (s : State) : Prop := s.fault ≠ .none

/-- Finished at `a`: Running, at a jump to itself (R172). A convention of the spec; the hardware does not detect it. -/
abbrev State.FinishedAt (s : State) (a : Addr) : Prop :=
  s.Running ∧ s.pc = addrOf a ∧ s.fetch = some (wordNNN 0x1#4 a)

/-! ## Frames -/

/-- One piece of what a state holds. -/
inductive Part where
  | reg (r : RegIx)
  | i
  | pc
  | sp
  | slot (j : Fin 16)
  | dt
  | st
  | byte (a : Nat)
  | pixel (p : Nat)
  | keys
  | wait
  | waitDest
  | fault
  | redraw
  | rndIn
  | events
  | clock
  deriving DecidableEq, Repr

/-- `t` holds in this part what `s` holds there. -/
def Part.Same (s t : State) : Part → Prop
  | .reg r => t.reg r = s.reg r
  | .i => t.i = s.i
  | .pc => t.pc = s.pc
  | .sp => t.sp = s.sp
  | .slot j => t.stack[j] = s.stack[j]
  | .dt => t.dt = s.dt
  | .st => t.st = s.st
  | .byte a => t.mem.peek a = s.mem.peek a
  | .pixel p => t.fb.pixelAt p = s.fb.pixelAt p
  | .keys => t.keys = s.keys
  | .wait => t.wait = s.wait
  | .waitDest => t.waitDest = s.waitDest
  | .fault => t.fault = s.fault
  | .redraw => t.redraw = s.redraw
  | .rndIn => t.rndIn = s.rndIn
  | .events => t.events = s.events
  | .clock => t.clock = s.clock

/-- From `s` to `t` nothing changes outside the parts allowed. -/
def ChangesOnly (allowed : Part → Prop) (s t : State) : Prop := ∀ p, ¬ allowed p → p.Same s t

/-- An instruction completes, in a state of which `P` holds. -/
def Completes (i : Instr) (s : State) (P : State → Prop) : Prop := ∃ t, exec i s = .next t ∧ P t

/-- An instruction raises the fault `c` and changes nothing else (R8, R141). -/
def Raises (i : Instr) (s : State) (c : FaultCode) : Prop :=
  Completes i s fun t => t.fault = c ∧ ChangesOnly (· = .fault) s t

/-- The pixels a sprite covers: 8 columns from `V[x] mod 64`, `n` rows from `V[y] mod 32`, wrapping (R122). -/
def spriteArea (s : State) (x y : RegIx) (n : BitVec 4) (p : Nat) : Prop :=
  ∃ r c : Nat, r < n.toNat ∧ c < 8 ∧ p = fbaddr ((s.reg x).toNat % 64 + c) ((s.reg y).toNat % 32 + r)

/-- Whether the sprite has a 1 bit on the pixel at column `cx < 64`, row `cy < 32` (R120 to R122): the pixel's distance
from the sprite's corner, counted rightward and downward with wraparound, picks the row byte and its bit. -/
def spriteBit (s : State) (x y : RegIx) (n : BitVec 4) (cx cy : Nat) : Bool :=
  let dc := (cx + 64 - (s.reg x).toNat % 64) % 64
  let dr := (cy + 32 - (s.reg y).toNat % 32) % 32
  decide (dr < n.toNat) && decide (dc < 8) && (s.mem.peek (s.i.toNat + dr)).getLsbD (7 - dc)

/-- What an instruction that raises no fault may write, and nothing else, as its rule lists it (R11, R12, R66 and the
instruction rules; "each row is the complete list of writes", decision D22). -/
def writes (i : Instr) (s : State) (p : Part) : Prop :=
  match i with
  | .cls => p = .pc ∨ p = .redraw ∨ ∃ q, p = .pixel q
  | .ret => p = .pc ∨ p = .sp
  | .jp _ | .jpV0 _ => p = .pc
  | .call _ => p = .pc ∨ p = .sp ∨ ∃ j : Fin 16, j.val = s.sp.toNat ∧ p = .slot j
  | .seImm _ _ | .sneImm _ _ | .seReg _ _ _ | .sneReg _ _ _ | .skp _ | .sknp _ => p = .pc
  | .ldImm x _ | .addImm x _ | .ldReg x _ | .orReg x _ | .andReg x _ | .xorReg x _ | .rnd x _ | .ldVxDt x =>
    p = .pc ∨ p = .reg x
  | .addReg x _ | .sub x _ | .shr x _ | .subn x _ | .shl x _ => p = .pc ∨ p = .reg x ∨ p = .reg vF
  | .ldI _ | .addI _ | .ldF _ => p = .pc ∨ p = .i
  | .drw x y n => p = .pc ∨ p = .redraw ∨ p = .reg vF ∨ ∃ q, spriteArea s x y n q ∧ p = .pixel q
  | .ldVxK _ => p = .wait ∨ p = .waitDest
  | .ldDtVx _ => p = .pc ∨ p = .dt
  | .ldStVx _ => p = .pc ∨ p = .st
  | .ldB _ => p = .pc ∨ ∃ k, k < 3 ∧ p = .byte (s.base + k)
  | .stRegs x => p = .pc ∨ ∃ k, k ≤ x.toNat ∧ p = .byte (s.base + k)
  | .ldRegs x => p = .pc ∨ ∃ r : RegIx, r.toNat ≤ x.toNat ∧ p = .reg r
  | .nop0 _ | .nop8 _ _ _ | .nopE _ _ | .nopF _ _ => p = .pc

/-! ## Faults and the program counter -/

/-- The fault an instruction raises (R140, R142 to R144), `.none` where it raises none. -/
def faultOf (i : Instr) (s : State) : FaultCode :=
  match i with
  | .ret => if s.sp = 0#8 then .stackUnderflow else .none
  | .call _ => if s.sp = 15#8 then .stackOverflow else .none
  | .drw _ _ n => if 1 ≤ n.toNat ∧ 4096 ≤ s.i.toNat + n.toNat - 1 then .outOfRange else .none
  | .ldB _ => if 4096 ≤ s.i.toNat + 2 then .outOfRange else .none
  | .stRegs x | .ldRegs x => if 4096 ≤ s.i.toNat + x.toNat then .outOfRange else .none
  | .skp x | .sknp x => if 16 ≤ (s.reg x).toNat then .outOfRange else .none
  | .cls | .jp _ | .seImm _ _ | .sneImm _ _ | .seReg _ _ _ | .ldImm _ _ | .addImm _ _ | .ldReg _ _ | .orReg _ _
  | .andReg _ _ | .xorReg _ _ | .addReg _ _ | .sub _ _ | .shr _ _ | .subn _ _ | .shl _ _ | .sneReg _ _ _ | .ldI _
  | .jpV0 _ | .rnd _ _ | .ldVxDt _ | .ldVxK _ | .ldDtVx _ | .ldStVx _ | .addI _ | .ldF _ | .nop0 _ | .nop8 _ _ _
  | .nopE _ _ | .nopF _ _ => .none

/-- Whether an instruction that may skip does skip (R80 to R83, R130, R131). -/
def skips (i : Instr) (s : State) : Bool :=
  match i with
  | .seImm x kk => decide (s.reg x = kk)
  | .sneImm x kk => decide (s.reg x ≠ kk)
  | .seReg x y _ => decide (s.reg x = s.reg y)
  | .sneReg x y _ => decide (s.reg x ≠ s.reg y)
  | .skp x => s.keys.getLsbD (s.reg x).toNat
  | .sknp x => !s.keys.getLsbD (s.reg x).toNat
  | .cls | .ret | .jp _ | .call _ | .ldImm _ _ | .addImm _ _ | .ldReg _ _ | .orReg _ _ | .andReg _ _ | .xorReg _ _
  | .addReg _ _ | .sub _ _ | .shr _ _ | .subn _ _ | .shl _ _ | .ldI _ | .jpV0 _ | .rnd _ _ | .drw _ _ _ | .ldVxDt _
  | .ldVxK _ | .ldDtVx _ | .ldStVx _ | .addI _ | .ldF _ | .ldB _ | .stRegs _ | .ldRegs _ | .nop0 _ | .nop8 _ _ _
  | .nopE _ _ | .nopF _ _ => false

/-- The table of R66, as a natural number: where `pc` stands after an instruction that raised no fault. -/
def pcAfter (i : Instr) (s : State) : Nat :=
  match i with
  | .jp nnn | .call nnn => nnn.toNat
  | .jpV0 nnn => (nnn.toNat + (s.reg v0).toNat) % 65536
  | .ret => ((s.stack.toList.getD (s.sp.toNat - 1) 0#16).toNat + 2) % 65536
  | .ldVxK _ => s.pc.toNat
  | .seImm _ _ | .sneImm _ _ | .seReg _ _ _ | .sneReg _ _ _ | .skp _ | .sknp _ =>
    if skips i s then (s.pc.toNat + 4) % 65536 else (s.pc.toNat + 2) % 65536
  | .cls | .ldImm _ _ | .addImm _ _ | .ldReg _ _ | .orReg _ _ | .andReg _ _ | .xorReg _ _ | .addReg _ _ | .sub _ _
  | .shr _ _ | .subn _ _ | .shl _ _ | .ldI _ | .rnd _ _ | .drw _ _ _ | .ldVxDt _ | .ldDtVx _ | .ldStVx _ | .addI _
  | .ldF _ | .ldB _ | .stRegs _ | .ldRegs _ | .nop0 _ | .nop8 _ _ _ | .nopE _ _ | .nopF _ _ =>
    (s.pc.toNat + 2) % 65536

/-! ## The invariant -/

/-- What every run keeps: memory in canonical form; `sp ≤ 15` (R14); slot 15 never written (R15); every return address
that of a word that was fetched (R63, R79); `pc` at most 0x10FE (R13); and AwaitingKey only at a word that was fetched,
never with a fault latched (R23, R133). -/
abbrev State.Inv (s : State) : Prop :=
  s.mem.wf ∧ s.sp.toNat ≤ 15 ∧ s.stack[15] = 0#16 ∧ (∀ j : Fin 16, s.stack[j].toNat ≤ 0x0FFE) ∧
    s.pc.toNat ≤ 0x10FE ∧ (s.wait = true → s.pc.toNat ≤ 0x0FFE ∧ s.fault = .none)

/-! ## Comparing two runs -/

/-- The same change made to a next state; a fault or a refusal stays. -/
def mapNext (f : State → State) : Out → Out
  | .next t => .next (f t)
  | .fault r => .fault r
  | .refused r => .refused r

/-! ## What the surroundings owe the machine -/

/-- An event that the host may issue: no image longer than 3584 bytes reaches `Reset` (R161, R163). -/
def Event.admissible : Event → Bool
  | .reset rom => decide (rom.length ≤ Config.romMax)
  | .step _ _ => true
  | .timerTick => true

/-- What is left of a frame's budget once `e` has come to `s`, of `n` left before (R74, R170). A Step that runs an
instruction costs one. An AwaitingKey poll costs nothing: while the machine waits "the instruction counter" is suspended
(R170); neither does a Step of a Halted machine, the budget being one "Within Running" (R74; DEDUCED, log 26). A TimerTick
is the frame boundary and starts a fresh budget (R74). The spec does not say what a Reset does to the budget. DESIGN
CHOICE, log 26: a Reset is no frame boundary and leaves what was left, so that the count stays one of Steps between two
consecutive TimerTicks, as R74 has it. -/
def budgetAfter (n : Nat) (e : Event) (s : State) : Nat :=
  match e with
  | .step _ _ => if s.halted || s.wait then n else n - 1
  | .timerTick => Config.cyclesPerFrame
  | .reset _ => n

/-- Whether the budget admits `e` now: only a Step that runs an instruction needs some of it left (R74, R170). -/
def budgetAdmits (n : Nat) (e : Event) (s : State) : Bool :=
  match e with
  | .step _ _ => s.halted || s.wait || decide (0 < n)
  | .timerTick => true
  | .reset _ => true

/-- A schedule that keeps the nominal cycle budget, from the state `s` with `n` left in this frame: at most
`CYCLES_PER_FRAME` instructions run between two TimerTicks (R74, R170). It follows the machine along the schedule,
because only the state tells a poll from an instruction; where an event stops the model, the rest asks nothing. It
constrains whoever issues Step, and no rule of the machine reads it (log 26). -/
def withinBudget : Nat → State → List Event → Bool
  | _, _, [] => true
  | n, s, e :: es =>
    budgetAdmits n e s &&
      match perform e { s with redraw := false } with
      | .next t => withinBudget (budgetAfter n e s) t es
      | .fault _ => true
      | .refused _ => true

end Sys2Proof.Machine
end

