-- ==== Sys2Proof/Certificates/Slice0/Obligations.lean ====
section
/-! DEFINITION. The statements for the provers, each from the rules of spec/ that its docstring cites. `Completes i s P`
says that `exec i s` answers a next state of which `P` holds; `ChangesOnly` is the frame. Where a statement gives an
instruction's word: the opcode and sub-opcode numbers other than 6 and 7, and the places of `y` and `n`, are marked in
the spec as general knowledge (G1, G2, G6, decisions D3 to D6; log 13). A decision D<n> that a docstring names is the
spec's own choice, not a sentence of its source. -/

open Sys2Proof Sys2Proof.Machine

/-! ## Encoding (spec/30_encoding.md) -/

/-- Decoding the word of a well-formed instruction gives it back, for every value of every operand (R46 to R57). -/
def Obligations.DecodeInvertsEncode : Prop :=
  ∀ i : Instr, i.wellFormed = true → decode (encode i) = i

/-- Every one of the 65536 words is the word of one well-formed instruction, the one it decodes to (R55: the decoder
is total; its list of no-op words rests on G6). That an instruction carries the ignored bits is the model's choice
(log 7). -/
def Obligations.EncodeInvertsDecode : Prop :=
  ∀ w : Word, (decode w).wellFormed = true ∧ encode (decode w) = w

/-- The decoder agrees with the opcode table read in priority order: the first row that a word fits is the row of the
instruction it decodes to (R57; the numbers in it are G1 and G6, log 13). -/
def Obligations.DecoderFollowsOpcodeTable : Prop :=
  ∀ w : Word, opcodeTable.findIdx? (fun r => r.fits w) = some (decode w).row

/-- The words that decode to a no-op are exactly those R55 lists under (a) to (d) (decision D6, and G6 for the values;
log 13). -/
def Obligations.NoOpWordsAreExactlyTheListed : Prop :=
  ∀ w : Word,
    ((∃ a, decode w = .nop0 a) ↔ w.toNat / 4096 = 0 ∧ w ≠ 0x00E0#16 ∧ w ≠ 0x00EE#16) ∧
    ((∃ x y n, decode w = .nop8 x y n) ↔ w.toNat / 4096 = 8 ∧ w.toNat % 16 ∈ [8, 9, 0xA, 0xB, 0xC, 0xD, 0xF]) ∧
    ((∃ x kk, decode w = .nopE x kk) ↔ w.toNat / 4096 = 0xE ∧ w.toNat % 256 ∉ [0x9E, 0xA1]) ∧
    ((∃ x kk, decode w = .nopF x kk) ↔
      w.toNat / 4096 = 0xF ∧ w.toNat % 256 ∉ [0x07, 0x0A, 0x15, 0x18, 0x1E, 0x29, 0x33, 0x55, 0x65])

/-- A few words of the spec's decoding table (95_test_vectors.md T-DEC), one or more for each family. -/
def Obligations.ListedWordsDecode : Prop :=
  decode 0x00E0#16 = .cls ∧ decode 0x00EE#16 = .ret ∧ decode 0x1ABC#16 = .jp 0xABC#12 ∧
  decode 0x3A7F#16 = .seImm 0xA#4 0x7F#8 ∧ decode 0x512F#16 = .seReg 1#4 2#4 0xF#4 ∧
  decode 0x6A05#16 = .ldImm 0xA#4 0x05#8 ∧ decode 0x7A10#16 = .addImm 0xA#4 0x10#8 ∧
  decode 0x8AB5#16 = .sub 0xA#4 0xB#4 ∧ decode 0x8AB8#16 = .nop8 0xA#4 0xB#4 8#4 ∧
  decode 0xA123#16 = .ldI 0x123#12 ∧ decode 0xD12F#16 = .drw 1#4 2#4 0xF#4 ∧
  decode 0xE1A1#16 = .sknp 1#4 ∧ decode 0xF133#16 = .ldB 1#4 ∧ decode 0xF10A#16 = .ldVxK 1#4 ∧
  decode 0x01E0#16 = .nop0 0x1E0#12

/-! ## The cycle (spec/40_cycle.md) -/

/-- Where the machine is Running and `pc` names a word of memory, a step whose next event is a Step samples its inputs
and then is `exec` of the decoded word; where no event is scheduled, free TimerTicks fall first and the inputs are
free (R61 to R65; the free surroundings are the model's, log 4). `redraw` is lowered before (R67). -/
def Obligations.StepRunsDecodedInstruction : Prop :=
  ∀ (s : State) (w : Word), s.Running → s.fetch = some w →
    (∀ k r es, s.events = .step k r :: es →
      step s = exec (decode w) (({ s with events := es, redraw := false } : State).sample k r)) ∧
    (s.events = [] →
      step s = exec (decode w)
        ((({ s with clock := s.clock + 1, redraw := false } : State).ticks (Config.ticksBefore s.clock)).sample
          (Config.keyIn s.clock) (Config.rndIn s.clock)))

/-- The fetch reads `mem[pc] ∥ mem[pc+1]`, most significant byte first, for every `pc` up to 0xFFE, even or odd; from
0xFFF on it raises OutOfRange and `pc` stays (R63). -/
def Obligations.FetchReadsTwoBytesOrFaults : Prop :=
  ∀ s : State,
    (s.pc.toNat < 4095 → s.fetch = some (s.mem.peek s.pc.toNat ++ s.mem.peek (s.pc.toNat + 1))) ∧
    (4095 ≤ s.pc.toNat → s.Running → ∀ k r es, s.events = .step k r :: es →
      ∃ t, step s = .next t ∧ t.fault = .outOfRange ∧ t.redraw = false ∧ t.events = es ∧
        ChangesOnly (fun p => p = .fault ∨ p = .keys ∨ p = .rndIn ∨ p = .redraw ∨ p = .events) s t)

/-- Every Step of a machine that is not Halted copies `key_in` into `K`, all 16 bits at once, Running or AwaitingKey,
and no other event but Reset writes `K` (R19, R62; decisions D14 and D30, log 19). -/
def Obligations.StepSamplesKeys : Prop :=
  ∀ s t : State, step s = .next t →
    (∀ k r es, s.events = .step k r :: es → s.fault = .none → t.keys = k) ∧
    (∀ k r es, s.events = .step k r :: es → s.fault ≠ .none → t.keys = s.keys) ∧
    (∀ es, s.events = .timerTick :: es → t.keys = s.keys)

/-- A Step of a Halted machine changes nothing: only the schedule moves on, and `redraw` is 0 (R69; decisions D9 and
D30, log 11). -/
def Obligations.HaltedStepChangesNothing : Prop :=
  ∀ (s : State) (k : Keys) (r : Byte) (es : List Event), s.events = .step k r :: es → s.Halted →
    ∃ t, step s = .next t ∧ t.redraw = false ∧ t.events = es ∧
      ChangesOnly (fun p => p = .redraw ∨ p = .events) s t

/-- Only Reset leaves the Halted state: with any other event, scheduled or free, a Halted machine stays as it is
(R145; decision D9, log 11). -/
def Obligations.OnlyResetLeavesHalted : Prop :=
  ∀ s : State, s.Halted → (∀ rom es, s.events ≠ .reset rom :: es) →
    ∃ t, step s = .next t ∧ ChangesOnly (fun p => p = .redraw ∨ p = .events ∨ p = .clock) s t

/-- The AwaitingKey poll: with no key rising nothing changes but the sample; with some key rising, the lowest-numbered
key that is down goes to `V[wait_dest]`, `pc` advances by 2 and the wait ends (R70). That the trigger is an edge, the
choice by level over the new sample, and the sample taken while waiting, is the spec's decision D14 (R71, log 19). -/
def Obligations.AwaitingKeyPoll : Prop :=
  ∀ (s : State) (k : Keys) (r : Byte) (es : List Event), s.events = .step k r :: es → s.AwaitingKey →
    ∃ t, step s = .next t ∧ t.keys = k ∧ t.redraw = false ∧ t.events = es ∧
      ((∀ j, k.getLsbD j = true → s.keys.getLsbD j = true) →
        ChangesOnly (fun p => p = .keys ∨ p = .rndIn ∨ p = .redraw ∨ p = .events) s t) ∧
      ((∃ j, k.getLsbD j = true ∧ s.keys.getLsbD j = false) →
        t.wait = false ∧ t.pc = s.pc + 2#16 ∧ k.getLsbD (t.reg s.waitDest).toNat = true ∧
        (t.reg s.waitDest).toNat < 16 ∧ (∀ l, l < (t.reg s.waitDest).toNat → k.getLsbD l = false) ∧
        ChangesOnly (fun p => p = .reg s.waitDest ∨ p = .pc ∨ p = .wait ∨ p = .keys ∨ p = .rndIn ∨ p = .redraw ∨
          p = .events) s t)

/-- TimerTick: both timers down by one, floored at zero, and nothing else; nothing at all while AwaitingKey or Halted
(R72; while Halted by decision D15, log 20). -/
def Obligations.TimerTickCountsDown : Prop :=
  ∀ (s : State) (es : List Event), s.events = .timerTick :: es →
    ∃ t, step s = .next t ∧ t.events = es ∧ t.redraw = false ∧
      (s.Running → t.dt.toNat = s.dt.toNat - 1 ∧ t.st.toNat = s.st.toNat - 1 ∧
        ChangesOnly (fun p => p = .dt ∨ p = .st ∨ p = .redraw ∨ p = .events) s t) ∧
      (¬ s.Running → ChangesOnly (fun p => p = .redraw ∨ p = .events) s t)

/-- With no event scheduled, one step is some number of TimerTicks followed by one Step, each an event of its own: the
free surroundings admit every number of TimerTicks before a Step (R73; the form is the model's, log 4). -/
def Obligations.UnscheduledStepIsTicksThenStep : Prop :=
  ∀ s : State, s.events = [] →
    step s = Sys2Proof.core.run (Config.ticksBefore s.clock + 1)
      { s with
        clock := s.clock + 1
        events := List.replicate (Config.ticksBefore s.clock) .timerTick ++
          [.step (Config.keyIn s.clock) (Config.rndIn s.clock)] }

/-- The timers never increase but by their own store instructions, or by Reset (R73; decision D15, log 20). -/
def Obligations.TimersNeverIncrease : Prop :=
  ∀ s t : State, step s = .next t → (∀ rom es, s.events ≠ .reset rom :: es) →
    ((∀ w x, s.fetch = some w → decode w ≠ .ldDtVx x) → t.dt.toNat ≤ s.dt.toNat) ∧
    ((∀ w x, s.fetch = some w → decode w ≠ .ldStVx x) → t.st.toNat ≤ s.st.toNat)

/-- `redraw` is 1 exactly when the Step executed Clear display or Draw without a fault, and the wait request is the
new value of `wait` (R67). -/
def Obligations.RedrawPulse : Prop :=
  ∀ (s t : State) (k : Keys) (r : Byte) (es : List Event), s.events = .step k r :: es → step s = .next t →
    (t.redraw = true ↔ s.Running ∧ t.fault = .none ∧
      ∃ w, s.fetch = some w ∧ (decode w = .cls ∨ ∃ x y n, decode w = .drw x y n)) ∧ t.waitOut = t.wait

/-! ## Reset (spec/70_reset_and_hazards.md, spec/10_state.md) -/

/-- The state right after reset: every value of the table that closes 10_state.md, with an empty image. The values of
`I`, the stack slots, `K`, the wait latch, `fault` and the memory above the image are the spec's decision D20, and the
font bytes its parameter D18 (log 1, log 2). -/
def Obligations.ResetStateValues : Prop :=
  (∀ r, State.reset.reg r = 0#8) ∧ State.reset.i = 0#16 ∧ State.reset.pc = 0x0200#16 ∧ State.reset.sp = 0#8 ∧
  (∀ j : Fin 16, State.reset.stack[j] = 0#16) ∧ State.reset.dt = 0#8 ∧ State.reset.st = 0#8 ∧
  (∀ a, State.reset.mem.peek a = if a < 80 then Config.font.getD a 0#8 else 0#8) ∧
  (∀ p, State.reset.fb.pixelAt p = false) ∧ State.reset.keys = 0#16 ∧ State.reset.wait = false ∧
  State.reset.waitDest = 0#4 ∧
  State.reset.fault = .none

/-- `Reset(rom)`, in any state, Halted and AwaitingKey among them: every piece of state at its reset value, the font
at 0x000 to 0x04F, the image from 0x200, zeros elsewhere; an image longer than 3584 bytes is refused (R160, R161;
decisions D1, D20, D31 and the font D18; log 2, log 9, log 12). -/
def Obligations.ResetInstallsResetValues : Prop :=
  ∀ (s : State) (rom : List Byte) (es : List Event), s.events = .reset rom :: es →
    (rom.length ≤ 3584 →
      ∃ t, step s = .next t ∧ (∀ r, t.reg r = 0#8) ∧ t.i = 0#16 ∧ t.pc = 0x0200#16 ∧ t.sp = 0#8 ∧
        (∀ j : Fin 16, t.stack[j] = 0#16) ∧ t.dt = 0#8 ∧ t.st = 0#8 ∧ (∀ p, t.fb.pixelAt p = false) ∧ t.keys = 0#16 ∧
        t.wait = false ∧ t.waitDest = 0#4 ∧ t.fault = .none ∧ t.redraw = false ∧ t.events = es ∧
        ∀ a, t.mem.peek a =
          if a < 80 then Config.font.getD a 0#8
          else if 0x200 ≤ a ∧ a < 0x200 + rom.length then rom.getD (a - 0x200) 0#8 else 0#8) ∧
    (3584 < rom.length → step s = .refused (.oversizedRom rom.length))

/-- `withFetchWord` puts a word where the very next step fetches and runs it, from any state whose memory is in
canonical form. The operation is the model's (log 6). -/
def Obligations.WithFetchWordRunsNext : Prop :=
  ∀ (s : State) (w : Word), s.mem.wf →
    (s.withFetchWord 16 w.toNat).Running ∧ (s.withFetchWord 16 w.toNat).fetch = some w ∧
    ∃ k r es, (s.withFetchWord 16 w.toNat).events = .step k r :: es

/-! ## Control transfer (spec/41_control_transfer.md) -/

/-- Every no-op advances `pc` by 2 and changes nothing else (R75). -/
def Obligations.NoOpOnlyAdvances : Prop :=
  ∀ s : State,
    (∀ a, Completes (.nop0 a) s fun t => t.pc = s.pc + 2#16 ∧ ChangesOnly (· = .pc) s t) ∧
    (∀ x y n, Completes (.nop8 x y n) s fun t => t.pc = s.pc + 2#16 ∧ ChangesOnly (· = .pc) s t) ∧
    (∀ x kk, Completes (.nopE x kk) s fun t => t.pc = s.pc + 2#16 ∧ ChangesOnly (· = .pc) s t) ∧
    (∀ x kk, Completes (.nopF x kk) s fun t => t.pc = s.pc + 2#16 ∧ ChangesOnly (· = .pc) s t)

/-- JP nnn: `1nnn`; `pc` takes `nnn`, any of its 4096 values, and nothing else changes (R78). -/
def Obligations.JumpSetsPc : Prop :=
  ∀ (nnn : Addr) (s : State), decode (0x1#4 ++ nnn) = .jp nnn ∧
    Completes (.jp nnn) s fun t => t.pc.toNat = nnn.toNat ∧ ChangesOnly (· = .pc) s t

/-- JP V0,nnn: `Bnnn`; `pc` takes `nnn + V[0]`, not reduced to 12 bits (R88; decision D12, log 17). -/
def Obligations.JumpIndexedAddsV0 : Prop :=
  ∀ (nnn : Addr) (s : State), decode (0xB#4 ++ nnn) = .jpV0 nnn ∧
    Completes (.jpV0 nnn) s fun t =>
      t.pc.toNat = nnn.toNat + (s.reg v0).toNat ∧ t.pc.toNat ≤ 0x10FE ∧ ChangesOnly (· = .pc) s t

/-- CALL nnn: `2nnn`; with `sp < 15` its own address goes to `stack[sp]`, `sp` goes up by 1 and `pc` takes `nnn`; with
`sp = 15` it raises StackOverflow, with no other effect (R79, R143; the limit 15 is decision D8, log 16). -/
def Obligations.CallPushesItsOwnAddress : Prop :=
  ∀ (nnn : Addr) (s : State), decode (0x2#4 ++ nnn) = .call nnn ∧
    (s.sp.toNat < 15 → Completes (.call nnn) s fun t =>
      t.pc.toNat = nnn.toNat ∧ t.sp.toNat = s.sp.toNat + 1 ∧
      (∀ j : Fin 16, j.val = s.sp.toNat → t.stack[j] = s.pc) ∧
      ChangesOnly (fun p => p = .pc ∨ p = .sp ∨ ∃ j : Fin 16, j.val = s.sp.toNat ∧ p = .slot j) s t) ∧
    (s.sp.toNat = 15 → Raises (.call nnn) s .stackOverflow)

/-- RET: `00EE`; with `sp` from 1 to 15, `pc` takes the popped address plus 2, `sp` goes down by 1 and the slot keeps
its contents; with `sp = 0` it raises StackUnderflow, with no other effect (R77, R144; conflict C1). -/
def Obligations.ReturnPopsAndAddsTwo : Prop :=
  ∀ s : State, decode 0x00EE#16 = .ret ∧
    (∀ j : Fin 16, s.sp.toNat = j.val + 1 → Completes .ret s fun t =>
      t.pc.toNat = (s.stack[j].toNat + 2) % 65536 ∧ t.sp.toNat = s.sp.toNat - 1 ∧
      ChangesOnly (fun p => p = .pc ∨ p = .sp) s t) ∧
    (s.sp = 0#8 → Raises .ret s .stackUnderflow)

/-- A Call and then, at the callee, a Return: `pc` stands two bytes after the Call and `sp` is as before, whatever the
subroutine did to anything but the call stack (R85). -/
def Obligations.CallThenReturnResumes : Prop :=
  ∀ (nnn : Addr) (s t u v : State), s.sp.toNat < 15 → exec (.call nnn) s = .next t →
    u.sp = t.sp → u.stack = t.stack → exec .ret u = .next v → v.pc = s.pc + 2#16 ∧ v.sp = s.sp

/-- SE Vx,kk `3xkk` and SNE Vx,kk `4xkk` skip, by 4 instead of 2, where equal and where not equal, and change nothing
but `pc` (R80, R81). -/
def Obligations.SkipsOnImmediate : Prop :=
  ∀ (x : RegIx) (kk : Byte) (s : State),
    decode (0x3#4 ++ x ++ kk) = .seImm x kk ∧ decode (0x4#4 ++ x ++ kk) = .sneImm x kk ∧
    (Completes (.seImm x kk) s fun t =>
      t.pc = s.pc + (if s.reg x = kk then 4#16 else 2#16) ∧ ChangesOnly (· = .pc) s t) ∧
    (Completes (.sneImm x kk) s fun t =>
      t.pc = s.pc + (if s.reg x = kk then 2#16 else 4#16) ∧ ChangesOnly (· = .pc) s t)

/-- SE Vx,Vy `5xy·` and SNE Vx,Vy `9xy·`: likewise on two registers, for every value of the ignored nibble (R82, R83;
that it is ignored is decision D5 of R54, log 13). -/
def Obligations.SkipsOnRegister : Prop :=
  ∀ (x y : RegIx) (n : BitVec 4) (s : State),
    decode (0x5#4 ++ x ++ y ++ n) = .seReg x y n ∧ decode (0x9#4 ++ x ++ y ++ n) = .sneReg x y n ∧
    (Completes (.seReg x y n) s fun t =>
      t.pc = s.pc + (if s.reg x = s.reg y then 4#16 else 2#16) ∧ ChangesOnly (· = .pc) s t) ∧
    (Completes (.sneReg x y n) s fun t =>
      t.pc = s.pc + (if s.reg x = s.reg y then 2#16 else 4#16) ∧ ChangesOnly (· = .pc) s t)

/-! ## Registers and arithmetic (spec/42_alu.md) -/

/-- LD Vx,kk `6xkk`, ADD Vx,kk `7xkk` and LD Vx,Vy: the destination alone is written, and no flag (R90, R92; and R91
without its encoding, which `DecoderFollowsOpcodeTable` gives). -/
def Obligations.LoadsAndAddImmediate : Prop :=
  ∀ (x y : RegIx) (kk : Byte) (s : State),
    decode (0x6#4 ++ x ++ kk) = .ldImm x kk ∧ decode (0x7#4 ++ x ++ kk) = .addImm x kk ∧
    (Completes (.ldImm x kk) s fun t =>
      t.reg x = kk ∧ t.pc = s.pc + 2#16 ∧ ChangesOnly (fun p => p = .reg x ∨ p = .pc) s t) ∧
    (Completes (.ldReg x y) s fun t =>
      t.reg x = s.reg y ∧ t.pc = s.pc + 2#16 ∧ ChangesOnly (fun p => p = .reg x ∨ p = .pc) s t) ∧
    (Completes (.addImm x kk) s fun t =>
      (t.reg x).toNat = ((s.reg x).toNat + kk.toNat) % 256 ∧ t.pc = s.pc + 2#16 ∧
      ChangesOnly (fun p => p = .reg x ∨ p = .pc) s t)

/-- OR `8xy1`, AND `8xy2`, XOR `8xy3`, bit by bit; `VF` is unchanged unless it is the destination (R93 to R95;
decision D22, log 24). -/
def Obligations.BitwiseLogic : Prop :=
  ∀ (x y : RegIx) (s : State),
    decode (0x8#4 ++ x ++ y ++ 1#4) = .orReg x y ∧ decode (0x8#4 ++ x ++ y ++ 2#4) = .andReg x y ∧
    decode (0x8#4 ++ x ++ y ++ 3#4) = .xorReg x y ∧
    (Completes (.orReg x y) s fun t =>
      (∀ b, (t.reg x).getLsbD b = ((s.reg x).getLsbD b || (s.reg y).getLsbD b)) ∧ t.pc = s.pc + 2#16 ∧
      ChangesOnly (fun p => p = .reg x ∨ p = .pc) s t) ∧
    (Completes (.andReg x y) s fun t =>
      (∀ b, (t.reg x).getLsbD b = ((s.reg x).getLsbD b && (s.reg y).getLsbD b)) ∧ t.pc = s.pc + 2#16 ∧
      ChangesOnly (fun p => p = .reg x ∨ p = .pc) s t) ∧
    (Completes (.xorReg x y) s fun t =>
      (∀ b, (t.reg x).getLsbD b = ((s.reg x).getLsbD b ^^ (s.reg y).getLsbD b)) ∧ t.pc = s.pc + 2#16 ∧
      ChangesOnly (fun p => p = .reg x ∨ p = .pc) s t)

/-- ADD Vx,Vy `8xy4`: the sum modulo 256, and in `VF` the carry, which is what remains where `x = 15` (R96; the order
of the writes is decision D7 of R101, log 15). -/
def Obligations.AddRegisterWithCarry : Prop :=
  ∀ (x y : RegIx) (s : State), decode (0x8#4 ++ x ++ y ++ 4#4) = .addReg x y ∧
    Completes (.addReg x y) s fun t =>
      (x ≠ vF → (t.reg x).toNat = ((s.reg x).toNat + (s.reg y).toNat) % 256) ∧
      (t.reg vF).toNat = (if 256 ≤ (s.reg x).toNat + (s.reg y).toNat then 1 else 0) ∧ t.pc = s.pc + 2#16 ∧
      ChangesOnly (fun p => p = .reg x ∨ p = .reg vF ∨ p = .pc) s t

/-- SUB `8xy5` and SUBN `8xy7`: the difference modulo 256, which is what remains where `x = 15`, and in `VF` 1 exactly
when the minuend is strictly greater (R97, R99, R103; the order of the writes is decision D7 of R101, log 15). -/
def Obligations.SubtractWithStrictFlag : Prop :=
  ∀ (x y : RegIx) (s : State),
    decode (0x8#4 ++ x ++ y ++ 5#4) = .sub x y ∧ decode (0x8#4 ++ x ++ y ++ 7#4) = .subn x y ∧
    (Completes (.sub x y) s fun t =>
      (t.reg x).toNat = ((s.reg x).toNat + 256 - (s.reg y).toNat) % 256 ∧
      (x ≠ vF → (t.reg vF).toNat = if (s.reg y).toNat < (s.reg x).toNat then 1 else 0) ∧ t.pc = s.pc + 2#16 ∧
      ChangesOnly (fun p => p = .reg x ∨ p = .reg vF ∨ p = .pc) s t) ∧
    (Completes (.subn x y) s fun t =>
      (t.reg x).toNat = ((s.reg y).toNat + 256 - (s.reg x).toNat) % 256 ∧
      (x ≠ vF → (t.reg vF).toNat = if (s.reg x).toNat < (s.reg y).toNat then 1 else 0) ∧ t.pc = s.pc + 2#16 ∧
      ChangesOnly (fun p => p = .reg x ∨ p = .reg vF ∨ p = .pc) s t)

/-- SHR `8xy6` and SHL `8xyE`: `V[x]` by one position, a zero entering, the lost bit to `VF`; where `x = 15` the
shifted value remains; `y` is ignored (R98, R100; the order of the writes is decision D7 of R101, log 15). -/
def Obligations.ShiftsByOne : Prop :=
  ∀ (x y : RegIx) (s : State),
    decode (0x8#4 ++ x ++ y ++ 6#4) = .shr x y ∧ decode (0x8#4 ++ x ++ y ++ 0xE#4) = .shl x y ∧
    (Completes (.shr x y) s fun t =>
      (t.reg x).toNat = (s.reg x).toNat / 2 ∧ (x ≠ vF → (t.reg vF).toNat = (s.reg x).toNat % 2) ∧
      t.pc = s.pc + 2#16 ∧ ChangesOnly (fun p => p = .reg x ∨ p = .reg vF ∨ p = .pc) s t) ∧
    (Completes (.shl x y) s fun t =>
      (t.reg x).toNat = (s.reg x).toNat * 2 % 256 ∧ (x ≠ vF → (t.reg vF).toNat = (s.reg x).toNat / 128) ∧
      t.pc = s.pc + 2#16 ∧ ChangesOnly (fun p => p = .reg x ∨ p = .reg vF ∨ p = .pc) s t)

/-- RND Vx,kk `Cxkk`, as a step: `V[x]` takes the random byte sampled by this very Step, AND `kk`; it holds for every
byte (R102; that the byte is an input is decision D17, log 21). -/
def Obligations.RandomIsMaskedInput : Prop :=
  ∀ (x : RegIx) (kk : Byte) (k : Keys) (r : Byte) (es : List Event) (s : State), decode (0xC#4 ++ x ++ kk) = .rnd x kk ∧
    (Completes (.rnd x kk) s fun t =>
      t.reg x = s.rndIn &&& kk ∧ t.pc = s.pc + 2#16 ∧ ChangesOnly (fun p => p = .reg x ∨ p = .pc) s t) ∧
    (s.Running → s.fetch = some (0xC#4 ++ x ++ kk) → s.events = .step k r :: es →
      ∃ t, step s = .next t ∧ t.reg x = r &&& kk)

/-! ## Index register and memory (spec/43_index_memory.md) -/

/-- LD I,nnn `Annn`, ADD I,Vx `Fx1E` and LD F,Vx `Fx29`: `I` alone is written, with no flag and no fault (R110 to
R112; `I` kept to 16 bits is decision D11, the full byte of LD F decision D25; log 17, log 25). -/
def Obligations.IndexRegisterWrites : Prop :=
  ∀ (nnn : Addr) (x : RegIx) (s : State),
    decode (0xA#4 ++ nnn) = .ldI nnn ∧ decode (0xF#4 ++ x ++ 0x1E#8) = .addI x ∧
    decode (0xF#4 ++ x ++ 0x29#8) = .ldF x ∧
    (Completes (.ldI nnn) s fun t =>
      t.i.toNat = nnn.toNat ∧ t.pc = s.pc + 2#16 ∧ ChangesOnly (fun p => p = .i ∨ p = .pc) s t) ∧
    (Completes (.addI x) s fun t =>
      t.i.toNat = (s.i.toNat + (s.reg x).toNat) % 65536 ∧ t.pc = s.pc + 2#16 ∧
      ChangesOnly (fun p => p = .i ∨ p = .pc) s t) ∧
    (Completes (.ldF x) s fun t =>
      t.i.toNat = (s.reg x).toNat * 5 ∧ t.pc = s.pc + 2#16 ∧ ChangesOnly (fun p => p = .i ∨ p = .pc) s t)

/-- LD B,Vx `Fx33`: hundreds, tens and units of `V[x]` to `I`, `I+1`, `I+2`, and no other byte; OutOfRange, with no
effect, where `I + 2` is 4096 or more (R114; the unreduced sum and the check before any write are decisions D9 and
D10; log 17). -/
def Obligations.StoreBcdDigits : Prop :=
  ∀ (x : RegIx) (s : State), decode (0xF#4 ++ x ++ 0x33#8) = .ldB x ∧
    (s.mem.wf → s.i.toNat + 2 < 4096 → Completes (.ldB x) s fun t =>
      (t.mem.peek s.i.toNat).toNat = (s.reg x).toNat / 100 ∧
      (t.mem.peek (s.i.toNat + 1)).toNat = (s.reg x).toNat / 10 % 10 ∧
      (t.mem.peek (s.i.toNat + 2)).toNat = (s.reg x).toNat % 10 ∧ t.pc = s.pc + 2#16 ∧
      ChangesOnly (fun p => p = .pc ∨ ∃ a, p = .byte a ∧ s.i.toNat ≤ a ∧ a ≤ s.i.toNat + 2) s t) ∧
    (4096 ≤ s.i.toNat + 2 → Raises (.ldB x) s .outOfRange)

/-- LD [I],Vx `Fx55`: `V[0]` to `V[x]` to `I` to `I + x`, and no other byte; OutOfRange, with no effect, where `I + x`
is 4096 or more (R115, R116; decisions D9 and D10, log 17). -/
def Obligations.StoreRegisters : Prop :=
  ∀ (x : RegIx) (s : State), decode (0xF#4 ++ x ++ 0x55#8) = .stRegs x ∧
    (s.mem.wf → s.i.toNat + x.toNat < 4096 → Completes (.stRegs x) s fun t =>
      (∀ r : RegIx, r.toNat ≤ x.toNat → t.mem.peek (s.i.toNat + r.toNat) = s.reg r) ∧ t.pc = s.pc + 2#16 ∧
      ChangesOnly (fun p => p = .pc ∨ ∃ a, p = .byte a ∧ s.i.toNat ≤ a ∧ a ≤ s.i.toNat + x.toNat) s t) ∧
    (4096 ≤ s.i.toNat + x.toNat → Raises (.stRegs x) s .outOfRange)

/-- LD Vx,[I] `Fx65`: the bytes at `I` to `I + x` to `V[0]` to `V[x]`, and no other register; OutOfRange, with no
effect, where `I + x` is 4096 or more (R115, R117; decisions D9 and D10, log 17). -/
def Obligations.LoadRegisters : Prop :=
  ∀ (x : RegIx) (s : State), decode (0xF#4 ++ x ++ 0x65#8) = .ldRegs x ∧
    (s.i.toNat + x.toNat < 4096 → Completes (.ldRegs x) s fun t =>
      (∀ r : RegIx, r.toNat ≤ x.toNat → t.reg r = s.mem.peek (s.i.toNat + r.toNat)) ∧ t.pc = s.pc + 2#16 ∧
      ChangesOnly (fun p => p = .pc ∨ ∃ r : RegIx, p = .reg r ∧ r.toNat ≤ x.toNat) s t) ∧
    (4096 ≤ s.i.toNat + x.toNat → Raises (.ldRegs x) s .outOfRange)

/-- Block transfers: `V[r]` pairs with `I + r` for `r` up to `x`, `I` is unchanged, registers above `V[x]` and memory
outside `I .. I + x` are untouched; and Store registers followed by Load registers, at the same index address and with
memory not written in between, brings back `V[0]` to `V[x]`, whatever happened to the registers (R115). -/
def Obligations.StoreThenLoadRegisters : Prop :=
  ∀ (x : RegIx) (s t u : State), s.mem.wf → s.i.toNat + x.toNat < 4096 → exec (.stRegs x) s = .next t →
    u.mem = t.mem → u.i = t.i →
    t.i = s.i ∧ (∀ r, t.reg r = s.reg r) ∧
    (∀ r : RegIx, r.toNat ≤ x.toNat → t.mem.peek (s.i.toNat + r.toNat) = s.reg r) ∧
    (∀ a, a < s.i.toNat ∨ s.i.toNat + x.toNat < a → t.mem.peek a = s.mem.peek a) ∧
    Completes (.ldRegs x) u fun v =>
      v.i = u.i ∧ v.mem = u.mem ∧ (∀ r : RegIx, r.toNat ≤ x.toNat → v.reg r = s.reg r) ∧
      ∀ r : RegIx, x.toNat < r.toNat → v.reg r = u.reg r

/-- A store is seen by every later fetch, with nothing in between: after Store registers over two bytes, a fetch of
the word that starts at the first of them gives the two registers stored (R39, R165, which the spec derives). -/
def Obligations.FetchSeesStores : Prop :=
  ∀ (x r q : RegIx) (s t u : State), s.mem.wf → exec (.stRegs x) s = .next t → t.fault = .none →
    q.toNat = r.toNat + 1 → q.toNat ≤ x.toNat → u.mem = t.mem → u.pc.toNat = s.i.toNat + r.toNat →
    u.fetch = some (s.reg r ++ s.reg q)

/-- Two memories in canonical form that read alike at every address are equal: equal contents are equal data (log 1).
-/
def Obligations.CanonicalMemoryIsExtensional : Prop :=
  ∀ m n : Mem, m.wf → n.wf → (∀ a, m.peek a = n.peek a) → m = n

/-! ## Display (spec/44_display.md) -/

/-- CLS `00E0`: every pixel off and `redraw` raised; `VF` and everything else unchanged (R123). -/
def Obligations.ClearDisplay : Prop :=
  ∀ s : State, decode 0x00E0#16 = .cls ∧
    Completes .cls s fun t => (∀ p, t.fb.pixelAt p = false) ∧ t.redraw = true ∧ t.pc = s.pc + 2#16 ∧
      ChangesOnly (fun p => p = .pc ∨ p = .redraw ∨ ∃ q, p = .pixel q) s t

/-- DRW Vx,Vy,n `Dxyn`: every pixel is XORed with the sprite's bit on it, the sprite placed at (`V[x]` mod 64, `V[y]`
mod 32) and wrapping on both axes; `VF` is 1 exactly when a pixel that was on is toggled; `redraw` is raised; `n = 0`
always completes; OutOfRange, with no effect, where a sprite byte lies at 4096 or beyond (R122; the bit order is G4
with decision D19, the check decision D10, `n = 0` decision D24; log 17, log 22, log 25). -/
def Obligations.DrawXorsSprite : Prop :=
  ∀ (x y : RegIx) (n : BitVec 4) (s : State), decode (0xD#4 ++ x ++ y ++ n) = .drw x y n ∧
    (n = 0#4 ∨ s.i.toNat + n.toNat - 1 < 4096 → Completes (.drw x y n) s fun t =>
      (∀ cx cy, cx < 64 → cy < 32 → t.pixel cx cy = (s.pixel cx cy ^^ spriteBit s x y n cx cy)) ∧
      (t.reg vF = 0#8 ∨ t.reg vF = 1#8) ∧
      (t.reg vF = 1#8 ↔ ∃ cx cy, cx < 64 ∧ cy < 32 ∧ s.pixel cx cy = true ∧ spriteBit s x y n cx cy = true) ∧
      t.redraw = true ∧ t.pc = s.pc + 2#16 ∧
      ChangesOnly (fun p => p = .pc ∨ p = .redraw ∨ p = .reg vF ∨ ∃ q, p = .pixel q) s t) ∧
    (1 ≤ n.toNat → 4096 ≤ s.i.toNat + n.toNat - 1 → Raises (.drw x y n) s .outOfRange)

/-- Drawing the same sprite twice at the same place restores the bitmap, and the second `VF` reflects collisions
against the draw's own first pass: it is 1 exactly when the sprite has a 1 bit on a pixel that was off to begin with
(R122, S3; the rule's remark that it is 1 "whenever the sprite has at least one 1 bit" holds only from such a pixel,
log 10). The same place: the first Draw left both coordinate registers as they were, which it does unless one of them
is `VF`. -/
def Obligations.DrawTwiceRestores : Prop :=
  ∀ (x y : RegIx) (n : BitVec 4) (s t : State), s.fault = .none → exec (.drw x y n) s = .next t → t.fault = .none →
    t.reg x = s.reg x → t.reg y = s.reg y →
    Completes (.drw x y n) t fun u => u.fb = s.fb ∧
      (u.reg vF = 1#8 ↔
        ∃ cx cy, cx < 64 ∧ cy < 32 ∧ spriteBit s x y n cx cy = true ∧ s.pixel cx cy = false)

/-! ## Keys and timers (spec/45_keys_timers.md) -/

/-- SKP Vx `Ex9E` and SKNP Vx `ExA1`: the level of key `V[x]` in the sample; OutOfRange, with no effect, where `V[x]`
is 16 or more (R130, R131, R136; the fault is decision D13, log 18). -/
def Obligations.SkipsOnKey : Prop :=
  ∀ (x : RegIx) (s : State),
    decode (0xE#4 ++ x ++ 0x9E#8) = .skp x ∧ decode (0xE#4 ++ x ++ 0xA1#8) = .sknp x ∧
    ((s.reg x).toNat < 16 →
      (Completes (.skp x) s fun t =>
        t.pc = s.pc + (if s.keys.getLsbD (s.reg x).toNat = true then 4#16 else 2#16) ∧ ChangesOnly (· = .pc) s t) ∧
      (Completes (.sknp x) s fun t =>
        t.pc = s.pc + (if s.keys.getLsbD (s.reg x).toNat = true then 2#16 else 4#16) ∧ ChangesOnly (· = .pc) s t)) ∧
    (16 ≤ (s.reg x).toNat → Raises (.skp x) s .outOfRange ∧ Raises (.sknp x) s .outOfRange)

/-- LD Vx,K `Fx0A`: arms the wait latch with `x`; `pc` does not advance and `V[x]` is not written (R133). -/
def Obligations.WaitForKeyArmsLatch : Prop :=
  ∀ (x : RegIx) (s : State), decode (0xF#4 ++ x ++ 0x0A#8) = .ldVxK x ∧
    Completes (.ldVxK x) s fun t => t.wait = true ∧ t.waitDest = x ∧ t.pc = s.pc ∧
      ChangesOnly (fun p => p = .wait ∨ p = .waitDest) s t

/-- A key already down when LD Vx,K executes does not resolve the wait: a poll whose sample has no key beyond those of
the sample taken by that Step leaves the machine waiting, at the same `pc` (R68, which the spec derives; decision D14,
log 19). -/
def Obligations.HeldKeyDoesNotResolveWait : Prop :=
  ∀ (x : RegIx) (s t u : State) (w : Word) (k j : Keys) (r q : Byte) (es : List Event), s.Running →
    s.fetch = some w → decode w = .ldVxK x → s.events = .step k r :: .step j q :: es →
    step s = .next t → step t = .next u → (∀ b, j.getLsbD b = true → k.getLsbD b = true) →
    t.AwaitingKey ∧ u.AwaitingKey ∧ u.pc = s.pc ∧ u.keys = j

/-- LD Vx,DT `Fx07`, LD DT,Vx `Fx15` and LD ST,Vx `Fx18`: a register and a timer, and nothing else (R132, R134, R135).
-/
def Obligations.TimerMoves : Prop :=
  ∀ (x : RegIx) (s : State),
    decode (0xF#4 ++ x ++ 0x07#8) = .ldVxDt x ∧ decode (0xF#4 ++ x ++ 0x15#8) = .ldDtVx x ∧
    decode (0xF#4 ++ x ++ 0x18#8) = .ldStVx x ∧
    (Completes (.ldVxDt x) s fun t =>
      t.reg x = s.dt ∧ t.pc = s.pc + 2#16 ∧ ChangesOnly (fun p => p = .reg x ∨ p = .pc) s t) ∧
    (Completes (.ldDtVx x) s fun t =>
      t.dt = s.reg x ∧ t.pc = s.pc + 2#16 ∧ ChangesOnly (fun p => p = .dt ∨ p = .pc) s t) ∧
    (Completes (.ldStVx x) s fun t =>
      t.st = s.reg x ∧ t.pc = s.pc + 2#16 ∧ ChangesOnly (fun p => p = .st ∨ p = .pc) s t)

/-! ## The whole machine -/

/-- Every instruction that raises no fault changes only what its rule lists (R11, R12, D22; `writes`). -/
def Obligations.InstructionsChangeOnlyTheirOwn : Prop :=
  ∀ (i : Instr) (s t : State), s.mem.wf → exec i s = .next t → faultOf i s = .none → s.sp.toNat ≤ 15 →
    ChangesOnly (writes i s) s t

/-- Each piece of state has its own writers and no others: `I`, `sp`, the stack, `DT`, `ST`, the bitmap, memory and
the wait latch each change only under the instructions named for it, and no instruction writes `K`, the random input,
the schedule or the clock (R12 to R20, R40; decisions D14 and D22, log 19, log 24). -/
def Obligations.StateHasOnlyItsNamedWriters : Prop :=
  ∀ (i : Instr) (s t : State), exec i s = .next t →
    (t.i ≠ s.i → (∃ a, i = .ldI a) ∨ ∃ x, i = .addI x ∨ i = .ldF x) ∧
    (t.sp ≠ s.sp → i = .ret ∨ ∃ a, i = .call a) ∧
    (t.stack ≠ s.stack → ∃ a, i = .call a) ∧
    (t.dt ≠ s.dt → ∃ x, i = .ldDtVx x) ∧
    (t.st ≠ s.st → ∃ x, i = .ldStVx x) ∧
    (t.fb ≠ s.fb → i = .cls ∨ ∃ x y n, i = .drw x y n) ∧
    (t.mem ≠ s.mem → ∃ x, i = .ldB x ∨ i = .stRegs x) ∧
    (t.wait ≠ s.wait ∨ t.waitDest ≠ s.waitDest → ∃ x, i = .ldVxK x) ∧
    t.keys = s.keys ∧ t.rndIn = s.rndIn ∧ t.events = s.events ∧ t.clock = s.clock

/-- `VF` changes only under the six instructions that write it as a flag, or under one that names register 15 as its
destination (R11; decision D22, log 24). -/
def Obligations.FlagRegisterWriters : Prop :=
  ∀ (i : Instr) (s t : State), exec i s = .next t → t.reg vF ≠ s.reg vF →
    (∃ x y, i = .addReg x y ∨ i = .sub x y ∨ i = .shr x y ∨ i = .subn x y ∨ i = .shl x y) ∨
    (∃ x y n, i = .drw x y n) ∨
    (∃ kk, i = .ldImm vF kk ∨ i = .addImm vF kk ∨ i = .rnd vF kk) ∨
    (∃ y, i = .ldReg vF y ∨ i = .orReg vF y ∨ i = .andReg vF y ∨ i = .xorReg vF y) ∨
    i = .ldVxDt vF ∨ i = .ldRegs vF

/-- Every instruction, with `sp` at most 15: which fault it raises, if any, is that of the tables of R140 and R142 to
R144, and it always answers a next state (decisions D8 to D10 and D13; log 11, log 16 to log 18). -/
def Obligations.FaultsAreExactlyTheListed : Prop :=
  ∀ (i : Instr) (s : State), s.sp.toNat ≤ 15 →
    Completes i s fun t =>
      (faultOf i s = .none → t.fault = s.fault) ∧
      (faultOf i s ≠ .none → t.fault = faultOf i s ∧ ChangesOnly (· = .fault) s t)

/-- Every instruction leaves `pc` where the table of R66 says, and unchanged where it raises a fault; and CALL pushes
its own address (R66). Where an instruction raises a fault is the tables of R142 to R144, with decisions D8, D10 and D13
(log 16, log 17, log 18), and that a fault leaves `pc` decision D9 (log 11); `pc` unmasked after JP V0 is decision D12
(log 17). -/
def Obligations.PcFollowsTheTable : Prop :=
  ∀ (i : Instr) (s : State), s.sp.toNat ≤ 15 →
    Completes i s fun t =>
      (faultOf i s = .none → t.pc.toNat = pcAfter i s) ∧ (faultOf i s ≠ .none → t.pc = s.pc) ∧
      (∀ a, i = .call a → faultOf i s = .none → ∀ j : Fin 16, j.val = s.sp.toNat → t.stack[j] = s.pc)

/-- Faults are precise: a Step that latches a fault has changed `fault`, the key sample (with the step's other input)
and nothing else; `pc` keeps the address of the faulting instruction and `redraw` is 0 (R141; decision D9, log 11). -/
def Obligations.FaultsArePrecise : Prop :=
  ∀ (s t : State) (k : Keys) (r : Byte) (es : List Event), s.events = .step k r :: es → s.fault = .none →
    step s = .next t → t.fault ≠ .none →
    t.keys = k ∧ t.redraw = false ∧ t.pc = s.pc ∧
    ChangesOnly (fun p => p = .fault ∨ p = .keys ∨ p = .rndIn ∨ p = .redraw ∨ p = .events) s t

/-- Every step keeps the invariant: canonical memory, `sp ≤ 15`, slot 15 unused, return addresses and `pc` in their
bounds, and AwaitingKey never with a fault (R13 to R15, R23; the bounds the spec derives; canonical memory is the
model's, log 1). -/
def Obligations.StepKeepsInvariant : Prop :=
  ∀ s t : State, s.Inv → step s = .next t → t.Inv

/-- The reset state meets the invariant. -/
def Obligations.ResetMeetsInvariant : Prop := State.reset.Inv

/-- From every state that meets the invariant, every step answers a next state, unless the host issues Reset with an
image longer than the 3584 bytes it may deliver: no instruction is refused and no fault stops the model (R55, R145,
R161; a latched fault is a next state, log 11, and the refusal of an oversized image is the model's, log 9). -/
def Obligations.StepAlwaysAnswers : Prop :=
  ∀ s : State, s.Inv → (∀ e es, s.events = e :: es → e.admissible = true) → ∃ t, step s = .next t

/-- A machine that has finished at `a` stays so: a Step changes the key sample alone, and a TimerTick the timers alone
(R172; the convention is decision D1). -/
def Obligations.FinishedStaysFinished : Prop :=
  ∀ (s : State) (a : Addr), s.FinishedAt a → (∀ rom es, s.events ≠ .reset rom :: es) →
    ∃ t, step s = .next t ∧ t.FinishedAt a ∧
      (∀ k r es, s.events = .step k r :: es →
        ChangesOnly (fun p => p = .keys ∨ p = .rndIn ∨ p = .redraw ∨ p = .events) s t) ∧
      (∀ es, s.events = .timerTick :: es →
        ChangesOnly (fun p => p = .dt ∨ p = .st ∨ p = .redraw ∨ p = .events) s t)

/-- No instruction reads `ST`: with another value in it an instruction does the same, and leaves that value, unless it
is LD ST,Vx (R16, R135). -/
def Obligations.NothingReadsSoundTimer : Prop :=
  ∀ (i : Instr) (s : State) (b : Byte), (∀ x, i ≠ .ldStVx x) →
    exec i { s with st := b } = mapNext (fun t => { t with st := b }) (exec i s)

/-- The random byte reaches nothing but RND: with another byte on `rnd_in`, every other instruction does the same
(R24, R102). -/
def Obligations.OnlyRandomReadsRandomInput : Prop :=
  ∀ (i : Instr) (s : State) (b : Byte), (∀ x kk, i ≠ .rnd x kk) →
    exec i { s with rndIn := b } = mapNext (fun t => { t with rndIn := b }) (exec i s)

/-- The key sample reaches nothing but the two key skips: with other keys down, every other instruction does the same
(R19). -/
def Obligations.OnlyKeySkipsReadKeys : Prop :=
  ∀ (i : Instr) (s : State) (k : Keys), (∀ x, i ≠ .skp x ∧ i ≠ .sknp x) →
    exec i { s with keys := k } = mapNext (fun t => { t with keys := k }) (exec i s)

/-- The bitmap reaches no register but `VF`, by Draw: with other pixels on, every other instruction does the same, but
for the bitmap itself (R18, R124). -/
def Obligations.OnlyDrawReadsBitmap : Prop :=
  ∀ (i : Instr) (s : State) (b : Bitmap), (∀ x y n, i ≠ .drw x y n) → i ≠ .cls →
    exec i { s with fb := b } = mapNext (fun t => { t with fb := b }) (exec i s)
end

