-- ==== Sys2Proof/Laws/Decode.lean ====
section
/-! SUPPORT. The fields of a word put together by the encoder, and a word put together from its fields. -/

namespace Sys2Proof

@[simp] theorem fieldOp_wordNNN (op : BitVec 4) (nnn : Addr) : fieldOp (wordNNN op nnn) = op := by
  unfold fieldOp wordNNN
  apply BitVec.eq_of_getLsbD_eq; intro i hi
  simp only [BitVec.getLsbD_extractLsb', BitVec.getLsbD_append, hi, decide_true, Bool.true_and]
  rw [if_neg (by omega)]
  congr 1; omega

@[simp] theorem fieldNNN_wordNNN (op : BitVec 4) (nnn : Addr) : fieldNNN (wordNNN op nnn) = nnn := by
  unfold fieldNNN wordNNN
  apply BitVec.eq_of_getLsbD_eq; intro i hi
  simp only [BitVec.getLsbD_extractLsb', BitVec.getLsbD_append, hi, decide_true, Bool.true_and]
  rw [if_pos (by omega)]
  congr 1; omega

@[simp] theorem fieldOp_wordXKK (op x : BitVec 4) (kk : Byte) : fieldOp (wordXKK op x kk) = op := by
  unfold fieldOp wordXKK
  apply BitVec.eq_of_getLsbD_eq; intro i hi
  simp only [BitVec.getLsbD_extractLsb', BitVec.getLsbD_append, hi, decide_true, Bool.true_and]
  rw [if_neg (by omega), if_neg (by omega)]
  congr 1; omega

@[simp] theorem fieldX_wordXKK (op x : BitVec 4) (kk : Byte) : fieldX (wordXKK op x kk) = x := by
  unfold fieldX wordXKK
  apply BitVec.eq_of_getLsbD_eq; intro i hi
  simp only [BitVec.getLsbD_extractLsb', BitVec.getLsbD_append, hi, decide_true, Bool.true_and]
  rw [if_neg (by omega), if_pos (by omega)]
  congr 1; omega

@[simp] theorem fieldKK_wordXKK (op x : BitVec 4) (kk : Byte) : fieldKK (wordXKK op x kk) = kk := by
  unfold fieldKK wordXKK
  apply BitVec.eq_of_getLsbD_eq; intro i hi
  simp only [BitVec.getLsbD_extractLsb', BitVec.getLsbD_append, hi, decide_true, Bool.true_and]
  rw [if_pos (by omega)]
  congr 1; omega

@[simp] theorem fieldOp_wordXYN (op x y n : BitVec 4) : fieldOp (wordXYN op x y n) = op := by
  unfold fieldOp wordXYN
  apply BitVec.eq_of_getLsbD_eq; intro i hi
  simp only [BitVec.getLsbD_extractLsb', BitVec.getLsbD_append, hi, decide_true, Bool.true_and]
  rw [if_neg (by omega), if_neg (by omega), if_neg (by omega)]
  congr 1; omega

@[simp] theorem fieldX_wordXYN (op x y n : BitVec 4) : fieldX (wordXYN op x y n) = x := by
  unfold fieldX wordXYN
  apply BitVec.eq_of_getLsbD_eq; intro i hi
  simp only [BitVec.getLsbD_extractLsb', BitVec.getLsbD_append, hi, decide_true, Bool.true_and]
  rw [if_neg (by omega), if_neg (by omega), if_pos (by omega)]
  congr 1; omega

@[simp] theorem fieldY_wordXYN (op x y n : BitVec 4) : fieldY (wordXYN op x y n) = y := by
  unfold fieldY wordXYN
  apply BitVec.eq_of_getLsbD_eq; intro i hi
  simp only [BitVec.getLsbD_extractLsb', BitVec.getLsbD_append, hi, decide_true, Bool.true_and]
  rw [if_neg (by omega), if_pos (by omega)]
  congr 1; omega

@[simp] theorem fieldN_wordXYN (op x y n : BitVec 4) : fieldN (wordXYN op x y n) = n := by
  unfold fieldN wordXYN
  apply BitVec.eq_of_getLsbD_eq; intro i hi
  simp only [BitVec.getLsbD_extractLsb', BitVec.getLsbD_append, hi, decide_true, Bool.true_and]
  rw [if_pos (by omega)]
  congr 1; omega

/-- A word is its `op` and its `nnn`. -/
theorem wordNNN_fields (w : Word) : wordNNN (fieldOp w) (fieldNNN w) = w := by
  unfold wordNNN fieldOp fieldNNN
  apply BitVec.eq_of_getLsbD_eq; intro i hi
  simp only [BitVec.getLsbD_append, BitVec.getLsbD_extractLsb']
  split
  · simp_all
  · rw [decide_eq_true (by omega : i - 12 < 4), Bool.true_and]; congr 1; omega

/-- A word is its `op`, its `x` and its `kk`. -/
theorem wordXKK_fields (w : Word) : wordXKK (fieldOp w) (fieldX w) (fieldKK w) = w := by
  unfold wordXKK fieldOp fieldX fieldKK
  apply BitVec.eq_of_getLsbD_eq; intro i hi
  simp only [BitVec.getLsbD_append, BitVec.getLsbD_extractLsb']
  split
  · simp_all
  · split
    · rw [decide_eq_true (by omega : i - 8 < 4), Bool.true_and]; congr 1; omega
    · rw [decide_eq_true (by omega : i - 8 - 4 < 4), Bool.true_and]; congr 1; omega

/-- A word is its `op`, its `x`, its `y` and its `n`. -/
theorem wordXYN_fields (w : Word) : wordXYN (fieldOp w) (fieldX w) (fieldY w) (fieldN w) = w := by
  unfold wordXYN fieldOp fieldX fieldY fieldN
  apply BitVec.eq_of_getLsbD_eq; intro i hi
  simp only [BitVec.getLsbD_append, BitVec.getLsbD_extractLsb']
  split
  · simp_all
  · split
    · rw [decide_eq_true (by omega : i - 4 < 4), Bool.true_and]; congr 1; omega
    · split
      · rw [decide_eq_true (by omega : i - 4 - 4 < 4), Bool.true_and]; congr 1; omega
      · rw [decide_eq_true (by omega : i - 4 - 4 - 4 < 4), Bool.true_and]; congr 1; omega

/-- The bytes of a word, put together again, are the word (R32). -/
theorem wordOfBytes_bytes (w : Word) : wordOfBytes (w.extractLsb' 8 8) (w.extractLsb' 0 8) = w := by
  unfold wordOfBytes
  apply BitVec.eq_of_getLsbD_eq; intro i hi
  simp only [BitVec.getLsbD_append, BitVec.getLsbD_extractLsb']
  split
  · simp_all
  · rw [decide_eq_true (by omega : i - 8 < 8), Bool.true_and]; congr 1; omega

end Sys2Proof
end

