-- ==== Sys2Proof/Laws/Display.lean ====
section
/-! SUPPORT. What drawing a sprite does to the bitmap and to the collision flag, pixel by pixel. -/

namespace Sys2Proof.Machine

theorem fbaddr_lt (cx cy : Nat) : fbaddr cx cy < 2048 := by unfold fbaddr; omega

/-- Two pixel addresses agree exactly when column and row agree, modulo the screen's size (R120). -/
theorem fbaddr_inj {cx cy dx dy : Nat} : fbaddr cx cy = fbaddr dx dy ↔ cx % 64 = dx % 64 ∧ cy % 32 = dy % 32 := by
  unfold fbaddr; omega

theorem Bitmap.pixelAt_of_ge (fb : Bitmap) (p : Nat) (h : 2048 ≤ p) : fb.pixelAt p = false := by
  unfold Bitmap.pixelAt
  rw [dif_neg (by omega)]

theorem Bitmap.pixelAt_blank (p : Nat) : Bitmap.blank.pixelAt p = false := by
  unfold Bitmap.pixelAt Bitmap.blank
  split <;> simp

/-- A flip changes its pixel and no other. -/
theorem Bitmap.pixelAt_flipAt (fb : Bitmap) (p q : Nat) (hp : p < 2048) :
    (fb.flipAt p).pixelAt q = (fb.pixelAt q ^^ decide (q = p)) := by
  unfold Bitmap.pixelAt Bitmap.flipAt
  rw [dif_pos hp]
  by_cases hq : q < 2048
  · rw [dif_pos hq, dif_pos hq, Vector.getElem_set]
    split
    · next hr =>
      simp only [BitVec.getLsbD_xor, BitVec.getLsbD_twoPow, hr]
      congr 1
      by_cases hc : q = p
      · subst hc; simp; omega
      · have : ¬ p % 64 = q % 64 := by omega
        simp [hc, this]
    · next hr =>
      have : q ≠ p := by rintro rfl; exact hr rfl
      simp [this]
  · rw [dif_neg hq, dif_neg hq]
    have : q ≠ p := by omega
    simp [this]

/-- Two bitmaps with the same pixels are equal. -/
theorem Bitmap.ext_pixels (a b : Bitmap) (h : ∀ p, p < 2048 → a.pixelAt p = b.pixelAt p) : a = b := by
  apply Vector.ext
  intro r hr
  apply BitVec.eq_of_getLsbD_eq
  intro c hc
  have := h (64 * r + c) (by omega)
  unfold Bitmap.pixelAt at this
  rw [dif_pos (by omega), dif_pos (by omega)] at this
  have h1 : (64 * r + c) / 64 = r := by omega
  have h2 : (64 * r + c) % 64 = c := by omega
  simpa only [h1, h2] using this

theorem Canvas.toggle_fst (cv : Canvas) (p q : Nat) (hp : p < 2048) :
    (cv.toggle p).1.pixelAt q = (cv.1.pixelAt q ^^ decide (q = p)) :=
  Bitmap.pixelAt_flipAt cv.1 p q hp

theorem Canvas.toggle_snd (cv : Canvas) (p : Nat) : (cv.toggle p).2 = (cv.2 || cv.1.pixelAt p) := rfl

/-- The pixels that the columns `cs` of one row toggle. -/
def Canvas.colHit (x0 y : Nat) (b : Byte) (cs : List Nat) (q : Nat) : Prop :=
  ∃ c ∈ cs, b.getLsbD (7 - c) = true ∧ q = fbaddr (x0 + c) y

/-- The pixels that the rows `bs`, from row `y` downward, toggle. -/
def Canvas.rowHit (x0 y : Nat) (bs : List Byte) (q : Nat) : Prop :=
  ∃ r c : Nat, r < bs.length ∧ c < 8 ∧ (bs.getD r 0#8).getLsbD (7 - c) = true ∧ q = fbaddr (x0 + c) (y + r)

open Classical in
/-- One row: a pixel is toggled exactly where a column of the row falls on it, each at most once; and the collision
flag is raised exactly where a pixel that was on is toggled. -/
theorem Canvas.drawCols_spec (x0 y : Nat) (b : Byte) (cs : List Nat) (hcs : ∀ c ∈ cs, c < 8) (hnd : cs.Nodup) :
    ∀ cv : Canvas,
      (∀ q, (Canvas.drawCols x0 y b cs cv).1.pixelAt q = (cv.1.pixelAt q ^^ decide (Canvas.colHit x0 y b cs q))) ∧
      ((Canvas.drawCols x0 y b cs cv).2 = true ↔
        cv.2 = true ∨ ∃ q, Canvas.colHit x0 y b cs q ∧ cv.1.pixelAt q = true) := by
  induction cs with
  | nil => intro cv; simp [Canvas.drawCols, Canvas.colHit]
  | cons c cs ih =>
    intro cv
    have hc : c < 8 := hcs c (by simp)
    have hcs' : ∀ d ∈ cs, d < 8 := fun d hd => hcs d (List.mem_cons_of_mem _ hd)
    obtain ⟨hnin, hnd'⟩ := List.nodup_cons.mp hnd
    have hp := fbaddr_lt (x0 + c) y
    have hnot : ¬ Canvas.colHit x0 y b cs (fbaddr (x0 + c) y) := by
      rintro ⟨d, hd, _, heq⟩
      have := fbaddr_inj.mp heq
      have hd8 := hcs' d hd
      have : c = d := by omega
      exact hnin (this ▸ hd)
    simp only [Canvas.drawCols]
    by_cases hb : b.getLsbD (7 - c) = true
    · simp only [hb, if_true]
      obtain ⟨h1, h2⟩ := ih hcs' hnd' (cv.toggle (fbaddr (x0 + c) y))
      have hit : ∀ q, Canvas.colHit x0 y b (c :: cs) q ↔ q = fbaddr (x0 + c) y ∨ Canvas.colHit x0 y b cs q := by
        intro q; simp [Canvas.colHit, hb]
      refine ⟨fun q => ?_, ?_⟩
      · rw [h1, Canvas.toggle_fst _ _ _ hp]
        by_cases hq : q = fbaddr (x0 + c) y
        · subst hq; simp [hit, hnot]
        · simp [hit, hq]
      · rw [h2, Canvas.toggle_snd]
        simp only [Canvas.toggle_fst _ _ _ hp, hit]
        constructor
        · rintro (h | ⟨q, hq, hv⟩)
          · rcases Bool.or_eq_true_iff.mp h with h | h
            · exact .inl h
            · exact .inr ⟨_, .inl rfl, h⟩
          · have hne : q ≠ fbaddr (x0 + c) y := fun e => hnot (e ▸ hq)
            exact .inr ⟨q, .inr hq, by simpa [hne] using hv⟩
        · rintro (h | ⟨q, rfl | hq, hv⟩)
          · exact .inl (by simp [h])
          · exact .inl (by simp [hv])
          · have hne : q ≠ fbaddr (x0 + c) y := fun e => hnot (e ▸ hq)
            exact .inr ⟨q, hq, by simp [hne, hv]⟩
    · obtain ⟨h1, h2⟩ := ih hcs' hnd' cv
      have hit : ∀ q, Canvas.colHit x0 y b (c :: cs) q ↔ Canvas.colHit x0 y b cs q := by
        intro q; simp [Canvas.colHit, hb]
      simp only [hb, if_false, hit, Bool.false_eq_true]
      exact ⟨h1, h2⟩

open Classical in
/-- The whole sprite, of at most 15 rows: no pixel is visited twice (R122), so a pixel is toggled exactly where the
sprite has a 1 bit on it, and the collision flag is raised exactly where a pixel that was on is toggled. -/
theorem Canvas.drawRows_spec (x0 : Nat) (bs : List Byte) : ∀ (y : Nat) (cv : Canvas), bs.length < 32 →
    (∀ q, (Canvas.drawRows x0 y bs cv).1.pixelAt q = (cv.1.pixelAt q ^^ decide (Canvas.rowHit x0 y bs q))) ∧
    ((Canvas.drawRows x0 y bs cv).2 = true ↔
      cv.2 = true ∨ ∃ q, Canvas.rowHit x0 y bs q ∧ cv.1.pixelAt q = true) := by
  induction bs with
  | nil => intro y cv _; simp [Canvas.drawRows, Canvas.rowHit]
  | cons b bs ih =>
    intro y cv hlen
    simp only [List.length_cons] at hlen
    obtain ⟨c1, c2⟩ := Canvas.drawCols_spec x0 y b [0, 1, 2, 3, 4, 5, 6, 7] (by simp) (by decide) cv
    obtain ⟨h1, h2⟩ := ih (y + 1) (Canvas.drawCols x0 y b [0, 1, 2, 3, 4, 5, 6, 7] cv) (by omega)
    have hcol : ∀ q, Canvas.colHit x0 y b [0, 1, 2, 3, 4, 5, 6, 7] q ↔
        ∃ c, c < 8 ∧ b.getLsbD (7 - c) = true ∧ q = fbaddr (x0 + c) y := by
      intro q
      unfold Canvas.colHit
      constructor
      · rintro ⟨c, hc, h⟩; exact ⟨c, by simp at hc; omega, h⟩
      · rintro ⟨c, hc, h⟩; exact ⟨c, by simp; omega, h⟩
    have hit : ∀ q, Canvas.rowHit x0 y (b :: bs) q ↔
        Canvas.colHit x0 y b [0, 1, 2, 3, 4, 5, 6, 7] q ∨ Canvas.rowHit x0 (y + 1) bs q := by
      intro q
      rw [hcol]
      unfold Canvas.rowHit
      constructor
      · rintro ⟨r, c, hr, hc, hb, hq⟩
        cases r with
        | zero => exact .inl ⟨c, hc, by simpa using hb, hq⟩
        | succ r =>
          exact .inr ⟨r, c, by simpa using hr, hc, by simpa using hb, by rw [hq]; congr 1; omega⟩
      · rintro (⟨c, hc, hb, hq⟩ | ⟨r, c, hr, hc, hb, hq⟩)
        · exact ⟨0, c, by simp, hc, by simpa using hb, hq⟩
        · exact ⟨r + 1, c, by simpa using hr, hc, by simpa using hb, by rw [hq]; congr 1; omega⟩
    have disj : ∀ q, Canvas.colHit x0 y b [0, 1, 2, 3, 4, 5, 6, 7] q → ¬ Canvas.rowHit x0 (y + 1) bs q := by
      intro q hc
      rw [hcol] at hc
      obtain ⟨c, _, _, rfl⟩ := hc
      rintro ⟨r, d, hr, _, _, heq⟩
      have := (fbaddr_inj.mp heq).2
      omega
    simp only [Canvas.drawRows]
    refine ⟨fun q => ?_, ?_⟩
    · rw [h1, c1]
      by_cases hc : Canvas.colHit x0 y b [0, 1, 2, 3, 4, 5, 6, 7] q
      · simp [hit, hc, disj q hc]
      · simp [hit, hc]
    · rw [h2, c2]
      simp only [c1, hit]
      constructor
      · rintro ((h | ⟨q, hq, hv⟩) | ⟨q, hq, hv⟩)
        · exact .inl h
        · exact .inr ⟨q, .inl hq, hv⟩
        · have hnc : ¬ Canvas.colHit x0 y b [0, 1, 2, 3, 4, 5, 6, 7] q := fun hc => disj q hc hq
          exact .inr ⟨q, .inr hq, by simpa [hnc] using hv⟩
      · rintro (h | ⟨q, hq | hq, hv⟩)
        · exact .inl (.inl h)
        · exact .inl (.inr ⟨q, hq, hv⟩)
        · have hnc : ¬ Canvas.colHit x0 y b [0, 1, 2, 3, 4, 5, 6, 7] q := fun hc => disj q hc hq
          exact .inr ⟨q, hq, by simp [hnc, hv]⟩

end Sys2Proof.Machine
end

