-- ==== Sys2Proof/Laws/Memory.lean ====
section
/-! SUPPORT. The laws of memory: reading after writing, and that every operation keeps the canonical form. -/

namespace Sys2Proof.Machine

/-- A lookup below every listed address finds the reset contents. -/
theorem Mem.peek_of_lt (m : Mem) (a : Nat) (h : ∀ c ∈ m, a < c.1) : m.peek a = Mem.initial a := by
  cases m with
  | nil => rfl
  | cons c m => simp [Mem.peek, h c (by simp)]

/-- The reset contents above the font are zero. -/
theorem Mem.initial_of_ge (a : Nat) (h : 80 ≤ a) : Mem.initial a = 0#8 := by
  have hlen : Config.font.length = 80 := by decide
  simp [Mem.initial, List.getD_eq_getElem?_getD, List.getElem?_eq_none (by omega : Config.font.length ≤ a)]

theorem Mem.wf_nil : Mem.wf [] := by simp [Mem.wf]

theorem Mem.wf_cons {c : Host.Cell} {m : Mem} :
    Mem.wf (c :: m) ↔ (∀ d ∈ m, c.1 < d.1) ∧ c.1 < 4096 ∧ c.2 ≠ Mem.initial c.1 ∧ Mem.wf m := by
  simp only [Mem.wf, List.pairwise_cons, List.mem_cons, forall_eq_or_imp]
  tauto

/-- Reading what `entry` put in front of a list whose addresses are all greater. -/
theorem Mem.peek_entry (m : Mem) (a : Nat) (b : Byte) (c : Nat) (h : ∀ d ∈ m, a < d.1) :
    (Mem.entry a b m).peek c = if c = a then b else m.peek c := by
  unfold Mem.entry
  split
  · next hb =>
    split
    · next hc => rw [hc, Mem.peek_of_lt m a h, hb]
    · rfl
  · simp only [Mem.peek]
    split
    · next hlt =>
      rw [if_neg (by omega), Mem.peek_of_lt m c (fun d hd => by have := h d hd; omega)]
    · rfl

theorem Mem.wf_entry {m : Mem} {a : Nat} (b : Byte) (hm : m.wf) (ha : a < 4096) (h : ∀ d ∈ m, a < d.1) :
    (Mem.entry a b m).wf := by
  unfold Mem.entry
  split
  · exact hm
  · next hb => exact Mem.wf_cons.mpr ⟨h, ha, hb, hm⟩

/-- No address appears in a list by `poke` but the one written. -/
theorem Mem.lt_poke {m : Mem} {a k : Nat} {b : Byte} (ha : k < a) (h : ∀ d ∈ m, k < d.1) :
    ∀ d ∈ m.poke a b, k < d.1 := by
  induction m with
  | nil =>
    intro d hd
    simp only [Mem.poke, Mem.entry] at hd
    split at hd <;> simp_all
  | cons c m ih =>
    obtain ⟨k', v'⟩ := c
    intro d hd
    have hm : ∀ d ∈ m, k < d.1 := fun d hd => h d (List.mem_cons_of_mem _ hd)
    have hc : k < k' := h (k', v') (by simp)
    simp only [Mem.poke, Mem.entry] at hd
    split at hd
    · split at hd
      · exact h d hd
      · rcases List.mem_cons.mp hd with rfl | hd
        · exact ha
        · exact h d hd
    · split at hd
      · split at hd
        · exact hm d hd
        · rcases List.mem_cons.mp hd with rfl | hd
          · exact ha
          · exact hm d hd
      · rcases List.mem_cons.mp hd with rfl | hd
        · exact hc
        · exact ih hm d hd

/-- A store keeps the canonical form. -/
theorem Mem.wf_poke {m : Mem} (hm : m.wf) {a : Nat} (ha : a < 4096) (b : Byte) : (m.poke a b).wf := by
  induction m with
  | nil => exact Mem.wf_entry b Mem.wf_nil ha (by simp)
  | cons c m ih =>
    obtain ⟨k, v⟩ := c
    have ⟨h1, h2, h3, h4⟩ := Mem.wf_cons.mp hm
    simp only [Mem.poke]
    split
    · next hlt =>
      refine Mem.wf_entry b hm ha fun d hd => ?_
      rcases List.mem_cons.mp hd with rfl | hd
      · exact hlt
      · exact lt_trans hlt (h1 d hd)
    · split
      · next heq => exact Mem.wf_entry b h4 ha (fun d hd => heq ▸ h1 d hd)
      · exact Mem.wf_cons.mpr ⟨Mem.lt_poke (by omega) h1, h2, h3, ih h4⟩

/-- A byte reads as stored; every other byte reads as before. -/
theorem Mem.peek_poke {m : Mem} (hm : m.wf) (a : Nat) (b : Byte) (c : Nat) :
    (m.poke a b).peek c = if c = a then b else m.peek c := by
  induction m with
  | nil => simp only [Mem.poke]; rw [Mem.peek_entry [] a b c (by simp)]
  | cons d m ih =>
    obtain ⟨k, v⟩ := d
    have ⟨h1, h2, h3, h4⟩ := Mem.wf_cons.mp hm
    simp only [Mem.poke]
    split
    · next hlt =>
      refine Mem.peek_entry _ a b c fun d hd => ?_
      rcases List.mem_cons.mp hd with rfl | hd
      · exact hlt
      · exact lt_trans hlt (h1 d hd)
    · split
      · next heq =>
        rw [Mem.peek_entry m a b c (fun d hd => heq ▸ h1 d hd)]
        simp only [Mem.peek]
        split
        · rfl
        · next hne =>
          split
          · exact Mem.peek_of_lt m c fun d hd => by have := h1 d hd; omega
          · rw [if_neg (by omega)]
      · simp only [Mem.peek, ih h4]
        split
        · rw [if_neg (by omega)]
        · split
          · rw [if_neg (by omega)]
          · rfl

/-- Storing a block keeps the canonical form. -/
theorem Mem.wf_pokes {bs : List Byte} : ∀ {m : Mem} {a : Nat}, m.wf → a + bs.length ≤ 4096 → (m.pokes a bs).wf := by
  induction bs with
  | nil => intro m a hm _; exact hm
  | cons b bs ih =>
    intro m a hm h
    simp only [List.length_cons] at h
    exact ih (Mem.wf_poke hm (by omega) b) (by omega)

/-- A byte of the block reads as stored; every byte outside it reads as before. -/
theorem Mem.peek_pokes {bs : List Byte} : ∀ {m : Mem} {a : Nat}, m.wf → a + bs.length ≤ 4096 → ∀ c : Nat,
    (m.pokes a bs).peek c = if a ≤ c ∧ c < a + bs.length then bs.getD (c - a) 0#8 else m.peek c := by
  induction bs with
  | nil => intro m a _ _ c; simp [Mem.pokes]
  | cons b bs ih =>
    intro m a hm h c
    simp only [List.length_cons] at h
    simp only [Mem.pokes, List.length_cons]
    rw [ih (Mem.wf_poke hm (by omega) b) (by omega), Mem.peek_poke hm]
    rcases Nat.lt_trichotomy c a with hc | rfl | hc
    · rw [if_neg (by omega), if_neg (by omega), if_neg (by omega)]
    · rw [if_neg (by omega), if_pos rfl, if_pos (by omega)]; simp
    · have : c - a = (c - (a + 1)) + 1 := by omega
      by_cases hin : c < a + 1 + bs.length
      · rw [if_pos (by omega), if_pos (by omega), this, List.getD_cons_succ]
      · rw [if_neg (by omega), if_neg (by omega), if_neg (by omega)]

theorem Mem.peeks_length (m : Mem) (a n : Nat) : (m.peeks a n).length = n := by
  induction n generalizing a with
  | zero => rfl
  | succ n ih => simp [Mem.peeks, ih]

theorem Mem.peeks_getD (m : Mem) (a n k : Nat) (h : k < n) : (m.peeks a n).getD k 0#8 = m.peek (a + k) := by
  induction n generalizing a k with
  | zero => omega
  | succ n ih =>
    cases k with
    | zero => simp [Mem.peeks]
    | succ k =>
      simp only [Mem.peeks, List.getD_cons_succ]
      rw [ih (a + 1) k (by omega)]
      congr 1
      omega

/-- A placed image names addresses from its start upward. -/
theorem Mem.image_ge (bs : List Byte) : ∀ (a : Nat), ∀ d ∈ Mem.image a bs, a ≤ d.1 := by
  induction bs with
  | nil => intro a d hd; simp [Mem.image] at hd
  | cons b bs ih =>
    intro a d hd
    simp only [Mem.image, Mem.entry] at hd
    split at hd
    · exact le_trans (by omega) (ih (a + 1) d hd)
    · rcases List.mem_cons.mp hd with rfl | hd
      · exact le_refl _
      · exact le_trans (by omega) (ih (a + 1) d hd)

/-- A placed image is in canonical form. -/
theorem Mem.wf_image (bs : List Byte) : ∀ (a : Nat), a + bs.length ≤ 4096 → (Mem.image a bs).wf := by
  induction bs with
  | nil => intro a _; exact Mem.wf_nil
  | cons b bs ih =>
    intro a h
    simp only [List.length_cons] at h
    exact Mem.wf_entry b (ih (a + 1) (by omega)) (by omega) fun d hd => Mem.image_ge bs (a + 1) d hd

/-- Memory after placing an image: its bytes from its start, the reset contents elsewhere. -/
theorem Mem.peek_image (bs : List Byte) : ∀ (a c : Nat),
    (Mem.image a bs).peek c = if a ≤ c ∧ c < a + bs.length then bs.getD (c - a) 0#8 else Mem.initial c := by
  induction bs with
  | nil => intro a c; simp [Mem.image, Mem.peek]
  | cons b bs ih =>
    intro a c
    simp only [Mem.image, List.length_cons]
    rw [Mem.peek_entry _ a b c (fun d hd => Mem.image_ge bs (a + 1) d hd), ih]
    rcases Nat.lt_trichotomy c a with hc | rfl | hc
    · rw [if_neg (by omega), if_neg (by omega), if_neg (by omega)]
    · rw [if_pos rfl, if_pos (by omega)]; simp
    · have : c - a = (c - (a + 1)) + 1 := by omega
      by_cases hin : c < a + 1 + bs.length
      · rw [if_neg (by omega), if_pos (by omega), if_pos (by omega), this, List.getD_cons_succ]
      · rw [if_neg (by omega), if_neg (by omega), if_neg (by omega)]

/-- What `readBlock` answers: the bytes, where the whole range is in memory. -/
theorem Mem.readBlock_eq_some {m : Mem} {a n : Nat} {bs : List Byte} :
    m.readBlock a n = some bs ↔ (n = 0 ∨ a + n ≤ 4096) ∧ bs = m.peeks a n := by
  unfold Mem.readBlock
  split <;> simp_all [eq_comm]

/-- What `writeBlock` answers: the memory with the block stored, where the whole range is in memory. -/
theorem Mem.writeBlock_eq_some {m m' : Mem} {a : Nat} {bs : List Byte} :
    m.writeBlock a bs = some m' ↔ a + bs.length ≤ 4096 ∧ m' = m.pokes a bs := by
  unfold Mem.writeBlock
  split <;> simp_all [eq_comm]

/-- What `readWord` answers: the two bytes, the lower address more significant. -/
theorem Mem.readWord_eq_some {m : Mem} {a : Nat} {w : Word} :
    m.readWord a = some w ↔ a + 1 < 4096 ∧ w = m.peek a ++ m.peek (a + 1) := by
  unfold Mem.readWord
  split <;> simp_all [eq_comm]

/-- A block store, where it answers, keeps the canonical form. -/
theorem Mem.wf_writeBlock {m m' : Mem} {a : Nat} {bs : List Byte} (hm : m.wf) (h : m.writeBlock a bs = some m') :
    m'.wf := by
  obtain ⟨h1, rfl⟩ := Mem.writeBlock_eq_some.mp h
  exact Mem.wf_pokes hm h1

end Sys2Proof.Machine
end

