-- ==== Sys2Proof/Laws/State.lean ====
section
/-! SUPPORT. One lemma per field for each named update of the state, and reading a register after writing one. -/

namespace Sys2Proof.Machine

/-! ### `setReg` -/

@[simp] theorem State.setReg_i (s : State) (x : RegIx) (b : Byte) : (s.setReg x b).i = s.i := rfl
@[simp] theorem State.setReg_pc (s : State) (x : RegIx) (b : Byte) : (s.setReg x b).pc = s.pc := rfl
@[simp] theorem State.setReg_sp (s : State) (x : RegIx) (b : Byte) : (s.setReg x b).sp = s.sp := rfl
@[simp] theorem State.setReg_stack (s : State) (x : RegIx) (b : Byte) : (s.setReg x b).stack = s.stack := rfl
@[simp] theorem State.setReg_dt (s : State) (x : RegIx) (b : Byte) : (s.setReg x b).dt = s.dt := rfl
@[simp] theorem State.setReg_st (s : State) (x : RegIx) (b : Byte) : (s.setReg x b).st = s.st := rfl
@[simp] theorem State.setReg_mem (s : State) (x : RegIx) (b : Byte) : (s.setReg x b).mem = s.mem := rfl
@[simp] theorem State.setReg_fb (s : State) (x : RegIx) (b : Byte) : (s.setReg x b).fb = s.fb := rfl
@[simp] theorem State.setReg_keys (s : State) (x : RegIx) (b : Byte) : (s.setReg x b).keys = s.keys := rfl
@[simp] theorem State.setReg_wait (s : State) (x : RegIx) (b : Byte) : (s.setReg x b).wait = s.wait := rfl
@[simp] theorem State.setReg_waitDest (s : State) (x : RegIx) (b : Byte) : (s.setReg x b).waitDest = s.waitDest := rfl
@[simp] theorem State.setReg_fault (s : State) (x : RegIx) (b : Byte) : (s.setReg x b).fault = s.fault := rfl
@[simp] theorem State.setReg_redraw (s : State) (x : RegIx) (b : Byte) : (s.setReg x b).redraw = s.redraw := rfl
@[simp] theorem State.setReg_rndIn (s : State) (x : RegIx) (b : Byte) : (s.setReg x b).rndIn = s.rndIn := rfl
@[simp] theorem State.setReg_events (s : State) (x : RegIx) (b : Byte) : (s.setReg x b).events = s.events := rfl
@[simp] theorem State.setReg_clock (s : State) (x : RegIx) (b : Byte) : (s.setReg x b).clock = s.clock := rfl

/-! ### `advance` -/

@[simp] theorem State.advance_v (s : State) (n : Word) : (s.advance n).v = s.v := rfl
@[simp] theorem State.advance_i (s : State) (n : Word) : (s.advance n).i = s.i := rfl
@[simp] theorem State.advance_sp (s : State) (n : Word) : (s.advance n).sp = s.sp := rfl
@[simp] theorem State.advance_stack (s : State) (n : Word) : (s.advance n).stack = s.stack := rfl
@[simp] theorem State.advance_dt (s : State) (n : Word) : (s.advance n).dt = s.dt := rfl
@[simp] theorem State.advance_st (s : State) (n : Word) : (s.advance n).st = s.st := rfl
@[simp] theorem State.advance_mem (s : State) (n : Word) : (s.advance n).mem = s.mem := rfl
@[simp] theorem State.advance_fb (s : State) (n : Word) : (s.advance n).fb = s.fb := rfl
@[simp] theorem State.advance_keys (s : State) (n : Word) : (s.advance n).keys = s.keys := rfl
@[simp] theorem State.advance_wait (s : State) (n : Word) : (s.advance n).wait = s.wait := rfl
@[simp] theorem State.advance_waitDest (s : State) (n : Word) : (s.advance n).waitDest = s.waitDest := rfl
@[simp] theorem State.advance_fault (s : State) (n : Word) : (s.advance n).fault = s.fault := rfl
@[simp] theorem State.advance_redraw (s : State) (n : Word) : (s.advance n).redraw = s.redraw := rfl
@[simp] theorem State.advance_rndIn (s : State) (n : Word) : (s.advance n).rndIn = s.rndIn := rfl
@[simp] theorem State.advance_events (s : State) (n : Word) : (s.advance n).events = s.events := rfl
@[simp] theorem State.advance_clock (s : State) (n : Word) : (s.advance n).clock = s.clock := rfl

/-! ### `sample` -/

@[simp] theorem State.sample_v (s : State) (k : Keys) (r : Byte) : (s.sample k r).v = s.v := rfl
@[simp] theorem State.sample_i (s : State) (k : Keys) (r : Byte) : (s.sample k r).i = s.i := rfl
@[simp] theorem State.sample_pc (s : State) (k : Keys) (r : Byte) : (s.sample k r).pc = s.pc := rfl
@[simp] theorem State.sample_sp (s : State) (k : Keys) (r : Byte) : (s.sample k r).sp = s.sp := rfl
@[simp] theorem State.sample_stack (s : State) (k : Keys) (r : Byte) : (s.sample k r).stack = s.stack := rfl
@[simp] theorem State.sample_dt (s : State) (k : Keys) (r : Byte) : (s.sample k r).dt = s.dt := rfl
@[simp] theorem State.sample_st (s : State) (k : Keys) (r : Byte) : (s.sample k r).st = s.st := rfl
@[simp] theorem State.sample_mem (s : State) (k : Keys) (r : Byte) : (s.sample k r).mem = s.mem := rfl
@[simp] theorem State.sample_fb (s : State) (k : Keys) (r : Byte) : (s.sample k r).fb = s.fb := rfl
@[simp] theorem State.sample_wait (s : State) (k : Keys) (r : Byte) : (s.sample k r).wait = s.wait := rfl
@[simp] theorem State.sample_waitDest (s : State) (k : Keys) (r : Byte) : (s.sample k r).waitDest = s.waitDest := rfl
@[simp] theorem State.sample_fault (s : State) (k : Keys) (r : Byte) : (s.sample k r).fault = s.fault := rfl
@[simp] theorem State.sample_redraw (s : State) (k : Keys) (r : Byte) : (s.sample k r).redraw = s.redraw := rfl
@[simp] theorem State.sample_events (s : State) (k : Keys) (r : Byte) : (s.sample k r).events = s.events := rfl
@[simp] theorem State.sample_clock (s : State) (k : Keys) (r : Byte) : (s.sample k r).clock = s.clock := rfl

/-! ### `setResultThenFlag` -/

@[simp] theorem State.setResultThenFlag_i (s : State) (x : RegIx) (r : Byte) (f : Bool) : (s.setResultThenFlag x r f).i = s.i := rfl
@[simp] theorem State.setResultThenFlag_pc (s : State) (x : RegIx) (r : Byte) (f : Bool) : (s.setResultThenFlag x r f).pc = s.pc := rfl
@[simp] theorem State.setResultThenFlag_sp (s : State) (x : RegIx) (r : Byte) (f : Bool) : (s.setResultThenFlag x r f).sp = s.sp := rfl
@[simp] theorem State.setResultThenFlag_stack (s : State) (x : RegIx) (r : Byte) (f : Bool) : (s.setResultThenFlag x r f).stack = s.stack := rfl
@[simp] theorem State.setResultThenFlag_dt (s : State) (x : RegIx) (r : Byte) (f : Bool) : (s.setResultThenFlag x r f).dt = s.dt := rfl
@[simp] theorem State.setResultThenFlag_st (s : State) (x : RegIx) (r : Byte) (f : Bool) : (s.setResultThenFlag x r f).st = s.st := rfl
@[simp] theorem State.setResultThenFlag_mem (s : State) (x : RegIx) (r : Byte) (f : Bool) : (s.setResultThenFlag x r f).mem = s.mem := rfl
@[simp] theorem State.setResultThenFlag_fb (s : State) (x : RegIx) (r : Byte) (f : Bool) : (s.setResultThenFlag x r f).fb = s.fb := rfl
@[simp] theorem State.setResultThenFlag_keys (s : State) (x : RegIx) (r : Byte) (f : Bool) : (s.setResultThenFlag x r f).keys = s.keys := rfl
@[simp] theorem State.setResultThenFlag_wait (s : State) (x : RegIx) (r : Byte) (f : Bool) : (s.setResultThenFlag x r f).wait = s.wait := rfl
@[simp] theorem State.setResultThenFlag_waitDest (s : State) (x : RegIx) (r : Byte) (f : Bool) : (s.setResultThenFlag x r f).waitDest = s.waitDest := rfl
@[simp] theorem State.setResultThenFlag_fault (s : State) (x : RegIx) (r : Byte) (f : Bool) : (s.setResultThenFlag x r f).fault = s.fault := rfl
@[simp] theorem State.setResultThenFlag_redraw (s : State) (x : RegIx) (r : Byte) (f : Bool) : (s.setResultThenFlag x r f).redraw = s.redraw := rfl
@[simp] theorem State.setResultThenFlag_rndIn (s : State) (x : RegIx) (r : Byte) (f : Bool) : (s.setResultThenFlag x r f).rndIn = s.rndIn := rfl
@[simp] theorem State.setResultThenFlag_events (s : State) (x : RegIx) (r : Byte) (f : Bool) : (s.setResultThenFlag x r f).events = s.events := rfl
@[simp] theorem State.setResultThenFlag_clock (s : State) (x : RegIx) (r : Byte) (f : Bool) : (s.setResultThenFlag x r f).clock = s.clock := rfl

/-! ### `setFlagThenResult` -/

@[simp] theorem State.setFlagThenResult_i (s : State) (x : RegIx) (r : Byte) (f : Bool) : (s.setFlagThenResult x r f).i = s.i := rfl
@[simp] theorem State.setFlagThenResult_pc (s : State) (x : RegIx) (r : Byte) (f : Bool) : (s.setFlagThenResult x r f).pc = s.pc := rfl
@[simp] theorem State.setFlagThenResult_sp (s : State) (x : RegIx) (r : Byte) (f : Bool) : (s.setFlagThenResult x r f).sp = s.sp := rfl
@[simp] theorem State.setFlagThenResult_stack (s : State) (x : RegIx) (r : Byte) (f : Bool) : (s.setFlagThenResult x r f).stack = s.stack := rfl
@[simp] theorem State.setFlagThenResult_dt (s : State) (x : RegIx) (r : Byte) (f : Bool) : (s.setFlagThenResult x r f).dt = s.dt := rfl
@[simp] theorem State.setFlagThenResult_st (s : State) (x : RegIx) (r : Byte) (f : Bool) : (s.setFlagThenResult x r f).st = s.st := rfl
@[simp] theorem State.setFlagThenResult_mem (s : State) (x : RegIx) (r : Byte) (f : Bool) : (s.setFlagThenResult x r f).mem = s.mem := rfl
@[simp] theorem State.setFlagThenResult_fb (s : State) (x : RegIx) (r : Byte) (f : Bool) : (s.setFlagThenResult x r f).fb = s.fb := rfl
@[simp] theorem State.setFlagThenResult_keys (s : State) (x : RegIx) (r : Byte) (f : Bool) : (s.setFlagThenResult x r f).keys = s.keys := rfl
@[simp] theorem State.setFlagThenResult_wait (s : State) (x : RegIx) (r : Byte) (f : Bool) : (s.setFlagThenResult x r f).wait = s.wait := rfl
@[simp] theorem State.setFlagThenResult_waitDest (s : State) (x : RegIx) (r : Byte) (f : Bool) : (s.setFlagThenResult x r f).waitDest = s.waitDest := rfl
@[simp] theorem State.setFlagThenResult_fault (s : State) (x : RegIx) (r : Byte) (f : Bool) : (s.setFlagThenResult x r f).fault = s.fault := rfl
@[simp] theorem State.setFlagThenResult_redraw (s : State) (x : RegIx) (r : Byte) (f : Bool) : (s.setFlagThenResult x r f).redraw = s.redraw := rfl
@[simp] theorem State.setFlagThenResult_rndIn (s : State) (x : RegIx) (r : Byte) (f : Bool) : (s.setFlagThenResult x r f).rndIn = s.rndIn := rfl
@[simp] theorem State.setFlagThenResult_events (s : State) (x : RegIx) (r : Byte) (f : Bool) : (s.setFlagThenResult x r f).events = s.events := rfl
@[simp] theorem State.setFlagThenResult_clock (s : State) (x : RegIx) (r : Byte) (f : Bool) : (s.setFlagThenResult x r f).clock = s.clock := rfl

@[simp] theorem State.advance_pc (s : State) (n : Word) : (s.advance n).pc = s.pc + n := rfl
@[simp] theorem State.sample_keys (s : State) (k : Keys) (r : Byte) : (s.sample k r).keys = k := rfl
@[simp] theorem State.sample_rndIn (s : State) (k : Keys) (r : Byte) : (s.sample k r).rndIn = r := rfl

/-! ### Reading a register -/

@[simp] theorem State.advance_reg (s : State) (n : Word) (x : RegIx) : (s.advance n).reg x = s.reg x := rfl
@[simp] theorem State.sample_reg (s : State) (k : Keys) (r : Byte) (x : RegIx) : (s.sample k r).reg x = s.reg x := rfl

/-- A register reads as written; every other register reads as before. -/
theorem State.setReg_reg (s : State) (x y : RegIx) (b : Byte) :
    (s.setReg x b).reg y = if y = x then b else s.reg y := by
  unfold State.setReg State.reg
  simp only [Vector.getElem_set, BitVec.toNat_eq, eq_comm]

@[simp] theorem State.setReg_reg_same (s : State) (x : RegIx) (b : Byte) : (s.setReg x b).reg x = b := by
  simp [State.setReg_reg]

/-- With result then flag, `VF` is the flag even where it is the destination. -/
theorem State.setResultThenFlag_reg (s : State) (x : RegIx) (r : Byte) (f : Bool) (y : RegIx) :
    (s.setResultThenFlag x r f).reg y = if y = vF then flagByte f else if y = x then r else s.reg y := by
  simp only [State.setResultThenFlag, State.setReg_reg]

/-- With flag then result, the destination is the result even where it is `VF`. -/
theorem State.setFlagThenResult_reg (s : State) (x : RegIx) (r : Byte) (f : Bool) (y : RegIx) :
    (s.setFlagThenResult x r f).reg y = if y = x then r else if y = vF then flagByte f else s.reg y := by
  simp only [State.setFlagThenResult, State.setReg_reg]

end Sys2Proof.Machine
end

