-- ==== Sys2Proof/Laws/Ops.lean ====
section
/-! SUPPORT. What each shared operation can do, once. -/

namespace Sys2Proof.Machine

/-- `raise` answers a next state that differs in `fault` alone. -/
theorem raise_eq_next {c : FaultCode} {s t : State} : raise c s = .next t ↔ t = { s with fault := c } := by
  unfold raise
  constructor
  · intro h; cases h; rfl
  · rintro rfl; rfl

/-- `fallThrough` advances `pc` by 2 and does nothing else. -/
theorem fallThrough_eq_next {s t : State} : fallThrough s = .next t ↔ t = s.advance 2#16 := by
  unfold fallThrough
  constructor
  · intro h; cases h; rfl
  · rintro rfl; rfl

/-- `skipIf` advances `pc` by 4 or 2 and does nothing else. -/
theorem skipIf_eq_next {c : Bool} {s t : State} :
    skipIf c s = .next t ↔ t = s.advance (if c then 4#16 else 2#16) := by
  unfold skipIf
  constructor
  · intro h; cases h; rfl
  · rintro rfl; rfl

/-- Loading a list into consecutive registers: those named read as loaded, the others as before. -/
theorem State.setRegsFrom_reg (bs : List Byte) : ∀ (s : State) (x : Nat), x + bs.length ≤ 16 → ∀ r : RegIx,
    (s.setRegsFrom x bs).reg r =
      if x ≤ r.toNat ∧ r.toNat < x + bs.length then bs.getD (r.toNat - x) 0#8 else s.reg r := by
  induction bs with
  | nil => intro s x _ r; simp [State.setRegsFrom]
  | cons b bs ih =>
    intro s x h r
    simp only [List.length_cons] at h
    have hx : (BitVec.ofNat 4 x).toNat = x := by simp; omega
    simp only [State.setRegsFrom, if_pos (by omega : x < 16), List.length_cons]
    rw [ih _ _ (by omega), State.setReg_reg]
    have heq : (r = BitVec.ofNat 4 x) ↔ r.toNat = x := by rw [BitVec.toNat_eq, hx]
    simp only [heq]
    rcases Nat.lt_trichotomy r.toNat x with hc | hc | hc
    · rw [if_neg (by omega), if_neg (by omega), if_neg (by omega)]
    · rw [if_neg (by omega), if_pos hc, if_pos (by omega)]; simp [hc]
    · have : r.toNat - x = (r.toNat - (x + 1)) + 1 := by omega
      by_cases hin : r.toNat < x + 1 + bs.length
      · rw [if_pos (by omega), if_pos (by omega), this, List.getD_cons_succ]
      · rw [if_neg (by omega), if_neg (by omega), if_neg (by omega)]

/-- Loading registers changes registers alone. -/
theorem State.setRegsFrom_rest (bs : List Byte) : ∀ (s : State) (x : Nat),
    s.setRegsFrom x bs = { s with v := (s.setRegsFrom x bs).v } := by
  induction bs with
  | nil => intro s x; rfl
  | cons b bs ih =>
    intro s x
    simp only [State.setRegsFrom]
    split
    · rw [ih]; rfl
    · rfl

/-- Loading registers reads nothing of the state but the registers. -/
theorem State.setRegsFrom_v_congr (bs : List Byte) : ∀ (s t : State) (x : Nat), s.v = t.v →
    (s.setRegsFrom x bs).v = (t.setRegsFrom x bs).v := by
  induction bs with
  | nil => intro s t x h; exact h
  | cons b bs ih =>
    intro s t x h
    simp only [State.setRegsFrom]
    split
    · exact ih _ _ _ (by simp only [State.setReg, h])
    · exact h

@[simp] theorem State.regsBelow_length (s : State) (n : Nat) : (s.regsBelow n).length = n := by
  simp [State.regsBelow]

theorem State.regsBelow_getD (s : State) (n k : Nat) (h : k < n) :
    (s.regsBelow n).getD k 0#8 = s.reg (BitVec.ofNat 4 k) := by
  simp [State.regsBelow, List.getD_eq_getElem?_getD, h]

@[simp] theorem bcdDigits_length (v : Byte) : (bcdDigits v).length = 3 := rfl

/-- The least key down: it is down, it is a key, and every lower key is up. -/
theorem lowestKey_eq_some {k : Keys} {j : Nat} :
    lowestKey k = some j ↔ j < 16 ∧ k.getLsbD j = true ∧ ∀ l, l < j → k.getLsbD l = false := by
  unfold lowestKey
  rw [List.find?_range_eq_some]
  simp [and_left_comm]

/-- No key is down exactly when the scan finds none. -/
theorem lowestKey_eq_none {k : Keys} : lowestKey k = none ↔ ∀ j, k.getLsbD j = false := by
  unfold lowestKey
  rw [List.find?_range_eq_none]
  constructor
  · intro h j
    by_cases hj : j < 16
    · simpa using h j hj
    · exact BitVec.getLsbD_of_ge _ _ (by omega)
  · intro h j _; simp [h j]

/-- A key rises when it is down now and was up before. -/
theorem rising_getLsbD (old new : Keys) (j : Nat) :
    (rising old new).getLsbD j = (new.getLsbD j && !old.getLsbD j) := by
  unfold rising
  by_cases hj : j < 16
  · simp [hj]
  · simp [BitVec.getLsbD_of_ge _ _ (by omega : 16 ≤ j)]

/-- The poll: nothing where no key rises; else the least key down goes to `V[wait_dest]`, and the wait ends. -/
theorem State.poll_cases (old : Keys) (s : State) :
    ((∀ j, s.keys.getLsbD j = true → old.getLsbD j = true) ∧ s.poll old = s) ∨
    (∃ j, (∃ m, s.keys.getLsbD m = true ∧ old.getLsbD m = false) ∧ j < 16 ∧ s.keys.getLsbD j = true ∧
      (∀ l, l < j → s.keys.getLsbD l = false) ∧
      s.poll old = { (s.setReg s.waitDest (BitVec.ofNat 8 j)).advance 2#16 with wait := false }) := by
  unfold State.poll
  split
  · next h =>
    left
    refine ⟨fun j hj => ?_, rfl⟩
    have := rising_getLsbD old s.keys j
    rw [h] at this
    simpa [hj] using this
  · next h =>
    right
    have ⟨m, hm⟩ : ∃ m, (rising old s.keys).getLsbD m = true := by
      by_contra hno
      apply h
      apply BitVec.eq_of_getLsbD_eq
      intro i _
      simp only [not_exists, Bool.not_eq_true] at hno
      simp [hno i]
    rw [rising_getLsbD] at hm
    simp only [Bool.and_eq_true, Bool.not_eq_true'] at hm
    cases hk : lowestKey s.keys with
    | none => rw [lowestKey_eq_none] at hk; simp [hk m] at hm
    | some j =>
      obtain ⟨h1, h2, h3⟩ := lowestKey_eq_some.mp hk
      exact ⟨j, ⟨m, hm⟩, h1, h2, h3, rfl⟩

theorem countDown_toNat (b : Byte) : (countDown b).toNat = b.toNat - 1 := by
  unfold countDown
  split
  · next h => subst h; rfl
  · next h =>
    have : b.toNat ≠ 0 := fun h0 => h (by apply BitVec.eq_of_toNat_eq; simpa using h0)
    have := b.isLt
    rw [BitVec.toNat_sub]
    simp
    omega

theorem countDownBy_toNat (n : Nat) (b : Byte) : (countDownBy n b).toNat = b.toNat - n := by
  unfold countDownBy
  split
  · next h => subst h; simp
  · have := b.isLt
    simp
    omega

/-- The fetch: the two bytes at `pc`, unless the second lies outside memory (R63). -/
theorem State.fetch_eq_some {s : State} {w : Word} :
    s.fetch = some w ↔ s.pc.toNat + 1 < 4096 ∧ w = s.mem.peek s.pc.toNat ++ s.mem.peek (s.pc.toNat + 1) :=
  Mem.readWord_eq_some

theorem State.fetch_eq_none {s : State} : s.fetch = none ↔ 4095 ≤ s.pc.toNat := by
  unfold State.fetch Mem.readWord
  split
  · simp; omega
  · simp; omega

/-- TimerTicks change the timers alone. -/
theorem State.ticks_rest (n : Nat) (s : State) :
    s.ticks n = { s with dt := (s.ticks n).dt, st := (s.ticks n).st } := by
  unfold State.ticks
  split <;> rfl

/-- A TimerTick changes the timers alone. -/
theorem State.timerTick_rest (s : State) :
    s.timerTick = { s with dt := s.timerTick.dt, st := s.timerTick.st } := by
  unfold State.timerTick
  split <;> rfl

/-- `Reset` answers the reset state with the image placed, or refuses an oversized image. -/
theorem doReset_cases (rom : List Byte) (s : State) :
    (rom.length ≤ 3584 ∧ doReset rom s =
      .next { State.reset with mem := Mem.image 0x200 rom, events := s.events, clock := s.clock }) ∨
    (3584 < rom.length ∧ doReset rom s = .refused (.oversizedRom rom.length)) := by
  unfold doReset Config.romMax Config.progBase
  split
  · exact .inl ⟨‹_›, rfl⟩
  · exact .inr ⟨by omega, rfl⟩

/-- A Step: nothing where Halted, a poll where AwaitingKey, else one instruction or a fetch fault (R61). -/
theorem coreStep_cases (k : Keys) (r : Byte) (s : State) :
    (s.fault ≠ .none ∧ coreStep k r s = .next s) ∨
    (s.fault = .none ∧ s.wait = true ∧ coreStep k r s = .next ((s.sample k r).poll s.keys)) ∨
    (s.fault = .none ∧ s.wait = false ∧ ∃ w, s.fetch = some w ∧ coreStep k r s = exec (decode w) (s.sample k r)) ∨
    (s.fault = .none ∧ s.wait = false ∧ s.fetch = none ∧
      coreStep k r s = .next { s.sample k r with fault := .outOfRange }) := by
  unfold coreStep State.halted
  by_cases hf : s.fault = .none
  · cases hw : s.wait with
    | true => exact .inr (.inl ⟨hf, rfl, by simp [hf]⟩)
    | false =>
      have hfetch : (s.sample k r).fetch = s.fetch := rfl
      cases h : s.fetch with
      | some w => exact .inr (.inr (.inl ⟨hf, rfl, w, rfl, by simp [hf, runInstr, hfetch, h]⟩))
      | none => exact .inr (.inr (.inr ⟨hf, rfl, rfl, by simp [hf, runInstr, hfetch, h, raise]⟩))
  · exact .inl ⟨hf, by simp [hf]⟩

/-- One step: the event at the head of the schedule, or free TimerTicks and then a Step with free inputs. -/
theorem nextEvent_cases (s : State) :
    (∃ rom es, s.events = .reset rom :: es ∧
      nextEvent s = doReset rom { s with events := es, redraw := false }) ∨
    (∃ k r es, s.events = .step k r :: es ∧
      nextEvent s = coreStep k r { s with events := es, redraw := false }) ∨
    (∃ es, s.events = .timerTick :: es ∧
      nextEvent s = .next ({ s with events := es, redraw := false } : State).timerTick) ∨
    (s.events = [] ∧ nextEvent s = coreStep (Config.keyIn s.clock) (Config.rndIn s.clock)
      (({ s with clock := s.clock + 1, redraw := false } : State).ticks (Config.ticksBefore s.clock))) := by
  unfold nextEvent
  split
  · next e es h =>
    cases e with
    | reset rom => exact .inl ⟨rom, es, h, rfl⟩
    | step k r => exact .inr (.inl ⟨k, r, es, h, rfl⟩)
    | timerTick => exact .inr (.inr (.inl ⟨es, h, rfl⟩))
  · next h => exact .inr (.inr (.inr ⟨h, by simp [h]⟩))

end Sys2Proof.Machine
end

