-- ==== Sys2Proof/Laws/PerInstr.lean ====
section
/-! SUPPORT. One lemma per instruction: its word fits its own row of the opcode table (spec/30_encoding.md R57). -/

namespace Sys2Proof

/-- Masking two joined parts masks each. -/
theorem append_and_append {m n : Nat} (a c : BitVec m) (b d : BitVec n) :
    (a ++ b) &&& (c ++ d) = (a &&& c) ++ (b &&& d) := by
  apply BitVec.eq_of_getLsbD_eq; intro i _
  simp only [BitVec.getLsbD_and, BitVec.getLsbD_append]
  split <;> rfl

theorem and_ones4 (a : BitVec 4) : a &&& 0xF#4 = a := BitVec.and_allOnes

theorem and_ones8 (a : BitVec 8) : a &&& 0xFF#8 = a := BitVec.and_allOnes

/-- Masking a word keeps the bits the mask names. -/
theorem wordNNN_mask (op : BitVec 4) (nnn : Addr) : wordNNN op nnn &&& 0xF000#16 = wordNNN op 0#12 :=
  (append_and_append op 0xF#4 nnn 0#12).trans (by rw [and_ones4, BitVec.and_zero]; rfl)

theorem wordXKK_mask (op x : BitVec 4) (kk : Byte) : wordXKK op x kk &&& 0xF000#16 = wordXKK op 0#4 0#8 :=
  (append_and_append (op ++ x) (0xF#4 ++ 0#4) kk 0#8).trans
    (by rw [append_and_append, and_ones4, BitVec.and_zero, BitVec.and_zero]; rfl)

theorem wordXKK_maskKK (op x : BitVec 4) (kk : Byte) : wordXKK op x kk &&& 0xF0FF#16 = wordXKK op 0#4 kk :=
  (append_and_append (op ++ x) (0xF#4 ++ 0#4) kk 0xFF#8).trans
    (by rw [append_and_append, and_ones4, and_ones8, BitVec.and_zero]; rfl)

theorem wordXYN_mask (op x y n : BitVec 4) : wordXYN op x y n &&& 0xF000#16 = wordXYN op 0#4 0#4 0#4 :=
  (append_and_append (op ++ x ++ y) (0xF#4 ++ 0#4 ++ 0#4) n 0#4).trans
    (by rw [append_and_append, append_and_append, and_ones4, BitVec.and_zero, BitVec.and_zero, BitVec.and_zero]; rfl)

theorem wordXYN_maskN (op x y n : BitVec 4) : wordXYN op x y n &&& 0xF00F#16 = wordXYN op 0#4 0#4 n :=
  (append_and_append (op ++ x ++ y) (0xF#4 ++ 0#4 ++ 0#4) n 0xF#4).trans
    (by rw [append_and_append, append_and_append, and_ones4, and_ones4, BitVec.and_zero, BitVec.and_zero]; rfl)

/-- The word of the instruction fits the row of the opcode table that the instruction stands for. -/
def Laws.TableRow.Statement (i : Instr) : Prop :=
  ∃ r, opcodeTable[i.row]? = some r ∧ encode i &&& r.mask = r.pattern

theorem Laws.TableRow.cls : Statement .cls :=
  ⟨⟨0xFFFF#16, 0x00E0#16⟩, rfl, by decide⟩

theorem Laws.TableRow.ret : Statement .ret :=
  ⟨⟨0xFFFF#16, 0x00EE#16⟩, rfl, by decide⟩

theorem Laws.TableRow.jp (nnn : Addr) : Statement (.jp nnn) :=
  ⟨⟨0xF000#16, 0x1000#16⟩, rfl, (wordNNN_mask ..).trans (by decide)⟩

theorem Laws.TableRow.call (nnn : Addr) : Statement (.call nnn) :=
  ⟨⟨0xF000#16, 0x2000#16⟩, rfl, (wordNNN_mask ..).trans (by decide)⟩

theorem Laws.TableRow.seImm (x : RegIx) (kk : Byte) : Statement (.seImm x kk) :=
  ⟨⟨0xF000#16, 0x3000#16⟩, rfl, (wordXKK_mask ..).trans (by decide)⟩

theorem Laws.TableRow.sneImm (x : RegIx) (kk : Byte) : Statement (.sneImm x kk) :=
  ⟨⟨0xF000#16, 0x4000#16⟩, rfl, (wordXKK_mask ..).trans (by decide)⟩

theorem Laws.TableRow.seReg (x y : RegIx) (ignored : BitVec 4) : Statement (.seReg x y ignored) :=
  ⟨⟨0xF000#16, 0x5000#16⟩, rfl, (wordXYN_mask ..).trans (by decide)⟩

theorem Laws.TableRow.ldImm (x : RegIx) (kk : Byte) : Statement (.ldImm x kk) :=
  ⟨⟨0xF000#16, 0x6000#16⟩, rfl, (wordXKK_mask ..).trans (by decide)⟩

theorem Laws.TableRow.addImm (x : RegIx) (kk : Byte) : Statement (.addImm x kk) :=
  ⟨⟨0xF000#16, 0x7000#16⟩, rfl, (wordXKK_mask ..).trans (by decide)⟩

theorem Laws.TableRow.ldReg (x y : RegIx) : Statement (.ldReg x y) :=
  ⟨⟨0xF00F#16, 0x8000#16⟩, rfl, (wordXYN_maskN ..).trans (by decide)⟩

theorem Laws.TableRow.orReg (x y : RegIx) : Statement (.orReg x y) :=
  ⟨⟨0xF00F#16, 0x8001#16⟩, rfl, (wordXYN_maskN ..).trans (by decide)⟩

theorem Laws.TableRow.andReg (x y : RegIx) : Statement (.andReg x y) :=
  ⟨⟨0xF00F#16, 0x8002#16⟩, rfl, (wordXYN_maskN ..).trans (by decide)⟩

theorem Laws.TableRow.xorReg (x y : RegIx) : Statement (.xorReg x y) :=
  ⟨⟨0xF00F#16, 0x8003#16⟩, rfl, (wordXYN_maskN ..).trans (by decide)⟩

theorem Laws.TableRow.addReg (x y : RegIx) : Statement (.addReg x y) :=
  ⟨⟨0xF00F#16, 0x8004#16⟩, rfl, (wordXYN_maskN ..).trans (by decide)⟩

theorem Laws.TableRow.sub (x y : RegIx) : Statement (.sub x y) :=
  ⟨⟨0xF00F#16, 0x8005#16⟩, rfl, (wordXYN_maskN ..).trans (by decide)⟩

theorem Laws.TableRow.shr (x y : RegIx) : Statement (.shr x y) :=
  ⟨⟨0xF00F#16, 0x8006#16⟩, rfl, (wordXYN_maskN ..).trans (by decide)⟩

theorem Laws.TableRow.subn (x y : RegIx) : Statement (.subn x y) :=
  ⟨⟨0xF00F#16, 0x8007#16⟩, rfl, (wordXYN_maskN ..).trans (by decide)⟩

theorem Laws.TableRow.shl (x y : RegIx) : Statement (.shl x y) :=
  ⟨⟨0xF00F#16, 0x800E#16⟩, rfl, (wordXYN_maskN ..).trans (by decide)⟩

theorem Laws.TableRow.sneReg (x y : RegIx) (ignored : BitVec 4) : Statement (.sneReg x y ignored) :=
  ⟨⟨0xF000#16, 0x9000#16⟩, rfl, (wordXYN_mask ..).trans (by decide)⟩

theorem Laws.TableRow.ldI (nnn : Addr) : Statement (.ldI nnn) :=
  ⟨⟨0xF000#16, 0xA000#16⟩, rfl, (wordNNN_mask ..).trans (by decide)⟩

theorem Laws.TableRow.jpV0 (nnn : Addr) : Statement (.jpV0 nnn) :=
  ⟨⟨0xF000#16, 0xB000#16⟩, rfl, (wordNNN_mask ..).trans (by decide)⟩

theorem Laws.TableRow.rnd (x : RegIx) (kk : Byte) : Statement (.rnd x kk) :=
  ⟨⟨0xF000#16, 0xC000#16⟩, rfl, (wordXKK_mask ..).trans (by decide)⟩

theorem Laws.TableRow.drw (x y : RegIx) (n : BitVec 4) : Statement (.drw x y n) :=
  ⟨⟨0xF000#16, 0xD000#16⟩, rfl, (wordXYN_mask ..).trans (by decide)⟩

theorem Laws.TableRow.skp (x : RegIx) : Statement (.skp x) :=
  ⟨⟨0xF0FF#16, 0xE09E#16⟩, rfl, (wordXKK_maskKK ..).trans (by decide)⟩

theorem Laws.TableRow.sknp (x : RegIx) : Statement (.sknp x) :=
  ⟨⟨0xF0FF#16, 0xE0A1#16⟩, rfl, (wordXKK_maskKK ..).trans (by decide)⟩

theorem Laws.TableRow.ldVxDt (x : RegIx) : Statement (.ldVxDt x) :=
  ⟨⟨0xF0FF#16, 0xF007#16⟩, rfl, (wordXKK_maskKK ..).trans (by decide)⟩

theorem Laws.TableRow.ldVxK (x : RegIx) : Statement (.ldVxK x) :=
  ⟨⟨0xF0FF#16, 0xF00A#16⟩, rfl, (wordXKK_maskKK ..).trans (by decide)⟩

theorem Laws.TableRow.ldDtVx (x : RegIx) : Statement (.ldDtVx x) :=
  ⟨⟨0xF0FF#16, 0xF015#16⟩, rfl, (wordXKK_maskKK ..).trans (by decide)⟩

theorem Laws.TableRow.ldStVx (x : RegIx) : Statement (.ldStVx x) :=
  ⟨⟨0xF0FF#16, 0xF018#16⟩, rfl, (wordXKK_maskKK ..).trans (by decide)⟩

theorem Laws.TableRow.addI (x : RegIx) : Statement (.addI x) :=
  ⟨⟨0xF0FF#16, 0xF01E#16⟩, rfl, (wordXKK_maskKK ..).trans (by decide)⟩

theorem Laws.TableRow.ldF (x : RegIx) : Statement (.ldF x) :=
  ⟨⟨0xF0FF#16, 0xF029#16⟩, rfl, (wordXKK_maskKK ..).trans (by decide)⟩

theorem Laws.TableRow.ldB (x : RegIx) : Statement (.ldB x) :=
  ⟨⟨0xF0FF#16, 0xF033#16⟩, rfl, (wordXKK_maskKK ..).trans (by decide)⟩

theorem Laws.TableRow.stRegs (x : RegIx) : Statement (.stRegs x) :=
  ⟨⟨0xF0FF#16, 0xF055#16⟩, rfl, (wordXKK_maskKK ..).trans (by decide)⟩

theorem Laws.TableRow.ldRegs (x : RegIx) : Statement (.ldRegs x) :=
  ⟨⟨0xF0FF#16, 0xF065#16⟩, rfl, (wordXKK_maskKK ..).trans (by decide)⟩

theorem Laws.TableRow.nop0 (nnn : Addr) : Statement (.nop0 nnn) :=
  ⟨⟨0xF000#16, 0x0000#16⟩, rfl, (wordNNN_mask ..).trans (by decide)⟩

theorem Laws.TableRow.nop8 (x y n : BitVec 4) : Statement (.nop8 x y n) :=
  ⟨⟨0xF000#16, 0x8000#16⟩, rfl, (wordXYN_mask ..).trans (by decide)⟩

theorem Laws.TableRow.nopE (x : BitVec 4) (kk : Byte) : Statement (.nopE x kk) :=
  ⟨⟨0xF000#16, 0xE000#16⟩, rfl, (wordXKK_mask ..).trans (by decide)⟩

theorem Laws.TableRow.nopF (x : BitVec 4) (kk : Byte) : Statement (.nopF x kk) :=
  ⟨⟨0xF000#16, 0xF000#16⟩, rfl, (wordXKK_mask ..).trans (by decide)⟩

end Sys2Proof
end

