-- ==== Sys2Proof/Laws/Run.lean ====
section
/-! SUPPORT. What one step and several steps answer, and what raising a fault answers, in the terms of Safety. -/

namespace Sys2Proof.Machine

/-- A run goes on from the state its first step answers. -/
theorem run_next {n : Nat} {s t : State} (h : step s = .next t) :
    Sys2Proof.core.run (n + 1) s = Sys2Proof.core.run n t := by
  have h' : Sys2Proof.core.step s = .next t := h
  simp only [Host.Core.run, h']

/-- A run of one step is that step. -/
theorem run_one (s : State) : Sys2Proof.core.run 1 s = step s := by
  have h : Sys2Proof.core.step s = step s := rfl
  simp only [Host.Core.run, h]
  cases step s <;> rfl

/-- A fault latched and nothing else: the frame of `raise` (R8, R141). -/
theorem changesOnly_fault (s : State) (c : FaultCode) : ChangesOnly (· = .fault) s { s with fault := c } := by
  intro p hp
  cases p <;> first | rfl | exact absurd rfl hp

/-- An instruction whose meaning ends in `raise` raises. -/
theorem raises_of_exec {i : Instr} {s : State} {c : FaultCode} (h : exec i s = raise c s) : Raises i s c :=
  ⟨_, h, rfl, changesOnly_fault s c⟩

/-- A poll, and a Step of a Halted machine, costs nothing of the budget and needs none of it (R170). -/
theorem budget_of_not_running {n : Nat} {k : Keys} {r : Byte} {s : State} (h : ¬ s.Running) :
    budgetAfter n (.step k r) s = n ∧ budgetAdmits n (.step k r) s = true := by
  have hs : (s.halted || s.wait) = true := by
    unfold State.halted
    cases hf : s.fault <;> cases hw : s.wait <;> simp_all [State.Running]
  simp [budgetAfter, budgetAdmits, hs]

/-- An instruction costs one and needs one (R74). -/
theorem budget_of_running {n : Nat} {k : Keys} {r : Byte} {s : State} (h : s.Running) :
    budgetAfter n (.step k r) s = n - 1 ∧ budgetAdmits n (.step k r) s = decide (0 < n) := by
  simp [budgetAfter, budgetAdmits, State.halted, h.1, h.2]

end Sys2Proof.Machine
end

