-- ==== Sys2Proof/Tests/Slice0.lean ====
section
/-! SUPPORT. The model's own tests: ill-formed terms, words written out from the encodings, one step of each instruction
with the expected result from spec/95_test_vectors.md or an instruction rule's own example, and witnesses that the
hypotheses of the obligations can be met. -/

namespace Sys2Proof.Tests

open Sys2Proof Sys2Proof.Machine

/-! ## Well-formedness: an ill-formed term for each check (R55) -/

theorem test_wf_nop0_refuses_cls : (Instr.nop0 0x0E0#12).wellFormed = false := by decide
theorem test_wf_nop0_refuses_ret : (Instr.nop0 0x0EE#12).wellFormed = false := by decide
theorem test_wf_nop8_refuses_shl : (Instr.nop8 1#4 2#4 0xE#4).wellFormed = false := by decide
theorem test_wf_nopE_refuses_skp : (Instr.nopE 1#4 0x9E#8).wellFormed = false := by decide
theorem test_wf_nopF_refuses_ldregs : (Instr.nopF 1#4 0x65#8).wellFormed = false := by decide

/-! ## Decoding: every constructor by a word written out from its encoding (T-DEC; R49 to R53) -/

theorem test_decode_control :
    decode 0b0000000011101110#16 = .ret ∧ decode 0b0001101010111100#16 = .jp 0xABC#12 ∧
    decode 0b0010001000000000#16 = .call 0x200#12 ∧ decode 0b0011101001111111#16 = .seImm 10#4 0x7F#8 ∧
    decode 0b0100111100000000#16 = .sneImm 15#4 0#8 ∧ decode 0b0101000100101111#16 = .seReg 1#4 2#4 15#4 ∧
    decode 0b1001000100100111#16 = .sneReg 1#4 2#4 7#4 ∧ decode 0b1011000100100011#16 = .jpV0 0x123#12 := by decide

theorem test_decode_nops :
    decode 0x0000#16 = .nop0 0#12 ∧ decode 0x00E1#16 = .nop0 0x0E1#12 ∧ decode 0x01E0#16 = .nop0 0x1E0#12 ∧
    decode 0x8AB8#16 = .nop8 10#4 11#4 8#4 ∧ decode 0x8ABD#16 = .nop8 10#4 11#4 13#4 ∧
    decode 0x8ABF#16 = .nop8 10#4 11#4 15#4 ∧ decode 0xE19F#16 = .nopE 1#4 0x9F#8 ∧
    decode 0xF175#16 = .nopF 1#4 0x75#8 := by decide

theorem test_decode_group8 :
    decode 0b1000101010110000#16 = .ldReg 10#4 11#4 ∧ decode 0b1000101010110001#16 = .orReg 10#4 11#4 ∧
    decode 0b1000101010110010#16 = .andReg 10#4 11#4 ∧ decode 0b1000101010110011#16 = .xorReg 10#4 11#4 ∧
    decode 0b1000101010110100#16 = .addReg 10#4 11#4 ∧ decode 0b1000101010110101#16 = .sub 10#4 11#4 ∧
    decode 0b1000101010110110#16 = .shr 10#4 11#4 ∧ decode 0b1000101010110111#16 = .subn 10#4 11#4 ∧
    decode 0b1000101010111110#16 = .shl 10#4 11#4 := by decide

theorem test_decode_immediates :
    decode 0b0110101000000101#16 = .ldImm 10#4 5#8 ∧ decode 0b0111101000010000#16 = .addImm 10#4 0x10#8 ∧
    decode 0b1100010111110000#16 = .rnd 5#4 0xF0#8 := by decide

theorem test_decode_display_keys :
    decode 0b0000000011100000#16 = .cls ∧ decode 0b1101000100101111#16 = .drw 1#4 2#4 15#4 ∧
    decode 0b1110000110011110#16 = .skp 1#4 ∧ decode 0b1110000110100001#16 = .sknp 1#4 := by decide

theorem test_decode_groupF_and_index :
    decode 0b1010000100100011#16 = .ldI 0x123#12 ∧ decode 0b1111000100000111#16 = .ldVxDt 1#4 ∧
    decode 0b1111000100001010#16 = .ldVxK 1#4 ∧ decode 0b1111000100010101#16 = .ldDtVx 1#4 ∧
    decode 0b1111000100011000#16 = .ldStVx 1#4 ∧ decode 0b1111000100011110#16 = .addI 1#4 ∧
    decode 0b1111000100101001#16 = .ldF 1#4 ∧ decode 0b1111000100110011#16 = .ldB 1#4 ∧
    decode 0b1111000101010101#16 = .stRegs 1#4 ∧ decode 0b1111000101100101#16 = .ldRegs 1#4 := by decide

/-- S6: the bytes `6A 05` are "load register 10 with 5". -/
theorem test_decode_bytes_big_endian : (decodeBytes [0x6A#8, 0x05#8, 0x7A#8]).toOption = some (.ldImm 10#4 5#8, [0x7A#8]) := by
  decide

theorem test_decode_bytes_truncated : decodeBytes [0x6A#8] = .error (.truncated 1) := rfl

theorem test_decode_table_word : decodeTableWord 16 0xF055 = some (.stRegs 0#4) := by decide

/-! ## One step of each instruction -/

/-- The reset state with some registers written. -/
def withRegs (rs : List (RegIx × Byte)) : State := rs.foldl (fun s r => s.setReg r.1 r.2) State.reset

/-- One Step that runs the word `w` at `pc`, with the keys `k` down and `r` on the random input. -/
def after (s : State) (w : Word) (k : Keys := 0#16) (r : Byte := 0#8) : Option State :=
  match step ({ s with events := [.step k r] }.withFetchWord 16 w.toNat) with
  | .next t => some t
  | .fault _ => none
  | .refused _ => none

/-- T-CTL 1. -/
theorem test_nop0 : (after { State.reset with pc := 0x300#16 } 0x0123#16).map (·.pc) = some 0x302#16 := by decide
/-- T-CTL 2. -/
theorem test_nop8 : (after (withRegs [(1#4, 3#8), (2#4, 4#8)]) 0x8128#16).map (fun t => (t.pc, t.reg 1#4, t.reg vF)) =
    some (0x202#16, 3#8, 0#8) := by decide
/-- T-DEC 26. -/
theorem test_nopE : (after State.reset 0xE1FF#16).map (·.pc) = some 0x202#16 := by decide
/-- T-DEC 28. -/
theorem test_nopF : (after State.reset 0xF185#16).map (·.pc) = some 0x202#16 := by decide
/-- T-CTL 3. -/
theorem test_jp_self : (after { State.reset with pc := 0x300#16 } 0x1300#16).map (·.pc) = some 0x300#16 := by decide
/-- T-CTL 7. -/
theorem test_call_deepest : (after { State.reset with pc := 0x300#16, sp := 14#8 } 0x2400#16).map
    (fun t => (t.pc, t.sp, t.stack[14])) = some (0x400#16, 15#8, 0x300#16) := by decide
/-- T-CTL 8. -/
theorem test_call_overflow : (after { State.reset with pc := 0x300#16, sp := 15#8 } 0x2400#16).map
    (fun t => (t.pc, t.sp, t.fault)) = some (0x300#16, 15#8, .stackOverflow) := by decide
/-- T-CTL 9. -/
theorem test_ret : (after { State.reset with sp := 1#8, stack := State.reset.stack.set 0 0x204#16 } 0x00EE#16).map
    (fun t => (t.pc, t.sp, t.stack[0])) = some (0x206#16, 0#8, 0x204#16) := by decide
/-- T-CTL 10. -/
theorem test_ret_underflow : (after { State.reset with pc := 0x300#16 } 0x00EE#16).map
    (fun t => (t.pc, t.sp, t.faultOut)) = some (0x300#16, 0#8, 3#2) := by decide
/-- T-CTL 12. -/
theorem test_se_imm : (after (withRegs [(3#4, 0x2A#8)]) 0x332A#16).map (·.pc) = some 0x204#16 := by decide
/-- T-CTL 14. -/
theorem test_sne_imm : (after (withRegs [(3#4, 0x2A#8)]) 0x432A#16).map (·.pc) = some 0x202#16 := by decide
/-- R82, example with a non-zero low nibble. -/
theorem test_se_reg_ignored_nibble : (after (withRegs [(1#4, 7#8), (2#4, 7#8)]) 0x512F#16).map (·.pc) = some 0x204#16 := by
  decide
/-- T-CTL 19. -/
theorem test_sne_reg : (after (withRegs [(1#4, 7#8), (2#4, 8#8)]) 0x9120#16).map (·.pc) = some 0x204#16 := by decide
/-- T-CTL 24. -/
theorem test_jp_v0_beyond_memory : (after (withRegs [(0#4, 0xFF#8)]) 0xBFFF#16).map (·.pc) = some 0x10FE#16 := by decide
/-- T-CTL 24, the Step after. -/
theorem test_fetch_beyond_memory : (match step { State.reset with pc := 0x10FE#16, events := [.step 1#16 0#8] } with
    | .next t => some (t.pc, t.fault, t.keys) | .fault _ => none | .refused _ => none) =
    some (0x10FE#16, .outOfRange, 1#16) := by decide

/-- T-ALU 2. -/
theorem test_ld_imm_vf : (after State.reset 0x6FFF#16).map (·.reg vF) = some 0xFF#8 := by decide
/-- T-ALU 3. -/
theorem test_ld_reg : (after (withRegs [(2#4, 0x7E#8)]) 0x8120#16).map (·.reg 1#4) = some 0x7E#8 := by decide
/-- T-ALU 5. -/
theorem test_add_imm_no_flag : (after (withRegs [(1#4, 0xFF#8)]) 0x7101#16).map (fun t => (t.reg 1#4, t.reg vF)) =
    some (0#8, 0#8) := by decide
/-- T-ALU 7. -/
theorem test_or_keeps_vf : (after (withRegs [(1#4, 0x0F#8), (2#4, 0xF1#8), (vF, 1#8)]) 0x8121#16).map
    (fun t => (t.reg 1#4, t.reg vF)) = some (0xFF#8, 1#8) := by decide
/-- T-ALU 8. -/
theorem test_and : (after (withRegs [(1#4, 0x3C#8), (2#4, 0x0F#8)]) 0x8122#16).map (·.reg 1#4) = some 0x0C#8 := by decide
/-- T-ALU 9. -/
theorem test_xor : (after (withRegs [(1#4, 0xFF#8), (2#4, 0x0F#8)]) 0x8123#16).map (·.reg 1#4) = some 0xF0#8 := by decide
/-- T-ALU 14. -/
theorem test_add_vf_keeps_carry : (after (withRegs [(vF, 0xFF#8), (2#4, 2#8)]) 0x8F24#16).map (·.reg vF) = some 1#8 := by
  decide
/-- T-ALU 16. -/
theorem test_add_reads_old_vf : (after (withRegs [(1#4, 1#8), (vF, 0xFF#8)]) 0x81F4#16).map
    (fun t => (t.reg 1#4, t.reg vF)) = some (0#8, 1#8) := by decide
/-- T-ALU 20. -/
theorem test_sub_equal_clears_flag : (after (withRegs [(1#4, 0x55#8), (2#4, 0x55#8), (vF, 1#8)]) 0x8125#16).map
    (fun t => (t.reg 1#4, t.reg vF)) = some (0#8, 0#8) := by decide
/-- T-ALU 22. -/
theorem test_sub_vf_keeps_difference : (after (withRegs [(vF, 0x30#8), (2#4, 0x10#8)]) 0x8F25#16).map (·.reg vF) =
    some 0x20#8 := by decide
/-- T-ALU 27. -/
theorem test_shr_ignores_vy : (after (withRegs [(1#4, 0xFF#8), (2#4, 0x12#8)]) 0x8126#16).map
    (fun t => (t.reg 1#4, t.reg 2#4, t.reg vF)) = some (0x7F#8, 0x12#8, 1#8) := by decide
/-- T-ALU 29. -/
theorem test_shr_vf : (after (withRegs [(vF, 5#8)]) 0x8F26#16).map (·.reg vF) = some 2#8 := by decide
/-- T-ALU 31. -/
theorem test_subn_borrow : (after (withRegs [(1#4, 0x30#8), (2#4, 0x10#8), (vF, 1#8)]) 0x8127#16).map
    (fun t => (t.reg 1#4, t.reg vF)) = some (0xE0#8, 0#8) := by decide
/-- T-ALU 34. -/
theorem test_shl : (after (withRegs [(1#4, 0x81#8)]) 0x812E#16).map (fun t => (t.reg 1#4, t.reg vF)) =
    some (2#8, 1#8) := by decide
/-- T-ALU 38. -/
theorem test_rnd : (after State.reset 0xC30F#16 0#16 0xA7#8).map (·.reg 3#4) = some 7#8 := by decide

/-- T-IDX 2. -/
theorem test_ld_i : (after State.reset 0xAFFF#16).map (·.i) = some 0x0FFF#16 := by decide
/-- T-IDX 5. -/
theorem test_add_i_wraps : (after { withRegs [(0#4, 2#8)] with i := 0xFFFF#16 } 0xF01E#16).map (·.i) = some 1#16 := by
  decide
/-- T-IDX 7. -/
theorem test_ld_f_full_byte : (after (withRegs [(4#4, 0xFF#8)]) 0xF429#16).map (·.i) = some 0x4FB#16 := by decide
/-- T-IDX 10. -/
theorem test_bcd_top_of_memory : (after { withRegs [(3#4, 0x9C#8)] with i := 0xFFD#16 } 0xF333#16).map
    (fun t => (t.mem.peek 0xFFD, t.mem.peek 0xFFE, t.mem.peek 0xFFF, t.i)) = some (1#8, 5#8, 6#8, 0xFFD#16) := by decide
/-- T-IDX 11. -/
theorem test_bcd_out_of_range : (after { withRegs [(3#4, 0x9C#8)] with i := 0xFFE#16 } 0xF333#16).map
    (fun t => (t.fault, t.pc, t.mem.peek 0xFFE)) = some (.outOfRange, 0x200#16, 0#8) := by decide
/-- T-IDX 12. -/
theorem test_store_regs : (after { withRegs [(0#4, 0x11#8), (1#4, 0x22#8), (2#4, 0x33#8), (3#4, 0x44#8)] with i := 0x400#16 }
    0xF255#16).map (fun t => (t.mem.peeks 0x400 4, t.i)) = some ([0x11#8, 0x22#8, 0x33#8, 0#8], 0x400#16) := by decide
/-- T-IDX 14. -/
theorem test_store_regs_out_of_range : (after { withRegs [(0#4, 0xAB#8)] with i := 0xFFF#16 } 0xF155#16).map
    (fun t => (t.fault, t.mem.peek 0xFFF)) = some (.outOfRange, 0#8) := by decide
/-- T-IDX 18: the default font. -/
theorem test_load_regs_font : (after State.reset 0xF165#16).map (fun t => (t.reg 0#4, t.reg 1#4, t.reg 2#4)) =
    some (0xF0#8, 0x90#8, 0#8) := by decide
/-- T-IDX 19. -/
theorem test_load_regs_out_of_range : (after { withRegs [(0#4, 1#8)] with i := 0xFFF#16 } 0xF165#16).map
    (fun t => (t.fault, t.reg 0#4)) = some (.outOfRange, 1#8) := by decide

/-- T-DSP 1. -/
theorem test_cls : (after { withRegs [(vF, 1#8)] with fb := Bitmap.blank.flipAt 2047 } 0x00E0#16).map
    (fun t => (t.fb, t.reg vF, t.redraw)) = some (Bitmap.blank, 1#8, true) := by decide
/-- T-DSP 4: wraparound on the right edge. -/
theorem test_drw_wraps : (after { withRegs [(1#4, 63#8), (2#4, 31#8)] with i := 0x300#16, mem := [(0x300, 0xC0#8)] }
    0xD121#16).map (fun t => (t.pixel 63 31, t.pixel 0 31, t.pixel 1 31, t.reg vF, t.redraw)) =
    some (true, true, false, 0#8, true) := by decide
/-- T-DSP 8: collision. -/
theorem test_drw_collision : (after { State.reset with i := 0x300#16, mem := [(0x300, 0xFF#8)], fb := Bitmap.blank.flipAt 3 }
    0xD121#16).map (fun t => (t.pixel 2 0, t.pixel 3 0, t.pixel 4 0, t.reg vF)) = some (true, false, true, 1#8) := by decide
/-- T-DSP 9: no rows. -/
theorem test_drw_no_rows : (after { withRegs [(vF, 1#8)] with i := 0xFFFF#16 } 0xD120#16).map
    (fun t => (t.fault, t.reg vF, t.redraw)) = some (.none, 0#8, true) := by decide
/-- T-DSP 12. -/
theorem test_drw_out_of_range : (after { withRegs [(vF, 1#8)] with i := 0xFFF#16 } 0xD002#16).map
    (fun t => (t.fault, t.reg vF, t.redraw, t.pc)) = some (.outOfRange, 1#8, false, 0x200#16) := by decide

/-- T-KEY 1. -/
theorem test_skp : (after { withRegs [(2#4, 7#8)] with pc := 0x210#16 } 0xE29E#16 0x80#16).map (fun t => (t.pc, t.keys)) =
    some (0x214#16, 0x80#16) := by decide
/-- T-KEY 5. -/
theorem test_skp_out_of_range : (after (withRegs [(2#4, 0x10#8)]) 0xE29E#16).map (fun t => (t.pc, t.fault)) =
    some (0x200#16, .outOfRange) := by decide
/-- T-KEY 4. -/
theorem test_sknp : (after { withRegs [(2#4, 7#8)] with pc := 0x210#16 } 0xE2A1#16 0x80#16).map (·.pc) = some 0x212#16 := by
  decide
/-- T-KEY 15. -/
theorem test_ld_k : (after State.reset 0xF50A#16).map (fun t => (t.wait, t.waitDest, t.pc)) = some (true, 5#4, 0x200#16) := by
  decide
/-- T-KEY 8. -/
theorem test_ld_vx_dt : (after { State.reset with dt := 0x2C#8 } 0xF307#16).map (·.reg 3#4) = some 0x2C#8 := by decide
/-- T-KEY 9. -/
theorem test_ld_dt : (after (withRegs [(3#4, 0x3C#8)]) 0xF315#16).map (·.dt) = some 0x3C#8 := by decide
/-- T-KEY 10. -/
theorem test_ld_st : (after (withRegs [(0#4, 5#8)]) 0xF018#16).map (·.stOut) = some 5#8 := by decide

/-! ## Events -/

/-- The next state of one step, where there is one. -/
def next (s : State) : Option State :=
  match step s with
  | .next t => some t
  | .fault _ => none
  | .refused _ => none

/-- T-KEY 20: the trigger is key 5, the choice is key 2, which is still down. -/
theorem test_poll_edge_triggers_level_chooses :
    (next { State.reset with wait := true, waitDest := 5#4, keys := 0x0004#16, events := [.step 0x0024#16 0#8] }).map
      (fun t => (t.reg 5#4, t.pc, t.wait, t.keys)) = some (2#8, 0x202#16, false, 0x0024#16) := by decide
/-- T-KEY 19: a held key does not end the wait. -/
theorem test_poll_held_key :
    (next { State.reset with wait := true, waitDest := 5#4, keys := 0x0004#16, events := [.step 0x0004#16 0#8] }).map
      (fun t => (t.wait, t.pc)) = some (true, 0x200#16) := by decide
/-- T-KEY 11, 12. -/
theorem test_timer_tick :
    (next { State.reset with dt := 2#8, st := 0#8, events := [.timerTick] }).map (fun t => (t.dt, t.st)) =
      some (1#8, 0#8) := by decide
/-- T-KEY 13. -/
theorem test_timer_tick_awaiting_key :
    (next { State.reset with dt := 9#8, st := 9#8, wait := true, events := [.timerTick] }).map (fun t => (t.dt, t.st)) =
      some (9#8, 9#8) := by decide
/-- T-KEY 22. -/
theorem test_halted_step :
    (next { State.reset with fault := .stackUnderflow, events := [.step 0xFFFF#16 0#8] }).map
      (fun t => (t.fault, t.keys, t.pc)) = some (.stackUnderflow, 0#16, 0x200#16) := by decide
/-- P1: `Reset` with the source's program, from the Halted state. -/
theorem test_reset_loads_rom :
    (next { State.reset with fault := .outOfRange, events := [.reset [0x6A#8, 0x05#8, 0x7A#8, 0x10#8]] }).map
      (fun t => (t.fault, t.pc, t.mem.peeks 0x200 5)) =
      some (.none, 0x200#16, [0x6A#8, 0x05#8, 0x7A#8, 0x10#8, 0#8]) := by decide
/-- With no event scheduled the machine runs all the same: the zero word at 0x200 is a no-op (R161). -/
theorem test_unscheduled_step_runs : (next State.reset).map (fun t => (t.pc, t.fault, t.clock)) =
    some (0x202#16, .none, 1) := by decide

/-- R74: with one instruction left, one fits before the TimerTick, which starts a fresh budget, and a second does not. -/
theorem test_budget_counts_instructions :
    withinBudget 1 State.reset [.step 0#16 0#8, .timerTick, .step 0#16 0#8] = true ∧
    withinBudget 1 State.reset [.step 0#16 0#8, .step 0#16 0#8] = false := by decide
/-- R170: "polls do not count against the budget", the resolving poll among them; the instruction after it does. -/
theorem test_budget_ignores_polls :
    withinBudget 0 { State.reset with wait := true } [.step 0#16 0#8, .step 8#16 0#8] = true ∧
    withinBudget 0 { State.reset with wait := true } [.step 8#16 0#8, .step 8#16 0#8] = false := by decide

/-! ## Witnesses: concrete states and operands that meet the hypotheses of the obligations, clause by clause, at the
boundaries of each clause -/

/-- The reset state with bytes stored from `a` upward. -/
def withBytes (a : Nat) (bs : List Byte) (s : State := State.reset) : State := { s with mem := s.mem.pokes a bs }

/-- The reset state at `pc` with one word there and one Step to come. -/
def readyAt (pc w : Word) (s : State := State.reset) : State :=
  { withBytes pc.toNat (bytesOfWord w) s with pc := pc, events := [.step 0x8001#16 0xA7#8] }

theorem witness_DecodeInvertsEncode :
    (Instr.nop8 1#4 2#4 0xF#4).wellFormed = true ∧ (Instr.nop0 0xFFF#12).wellFormed = true ∧
    (Instr.drw 15#4 15#4 15#4).wellFormed = true := by decide

theorem witness_StepRunsDecodedInstruction_scheduled :
    (readyAt 0xFFE#16 0x6A05#16).Running ∧ (readyAt 0xFFE#16 0x6A05#16).fetch = some 0x6A05#16 ∧
    (readyAt 0xFFE#16 0x6A05#16).events = [.step 0x8001#16 0xA7#8] := by decide

theorem witness_StepRunsDecodedInstruction_free :
    State.reset.Running ∧ State.reset.fetch = some 0x0000#16 ∧ State.reset.events = [] := by decide

theorem witness_FetchReadsTwoBytesOrFaults :
    (readyAt 0xFFE#16 0x6A05#16).pc.toNat < 4095 ∧
    4095 ≤ (readyAt 0xFFF#16 0x6A05#16).pc.toNat ∧ (readyAt 0xFFF#16 0x6A05#16).Running ∧
    (readyAt 0xFFF#16 0x6A05#16).events = [.step 0x8001#16 0xA7#8] := by decide

theorem witness_StepSamplesKeys :
    (∃ t, step (readyAt 0x200#16 0x00E0#16) = .next t) ∧ (readyAt 0x200#16 0x00E0#16).fault = .none ∧
    (readyAt 0x200#16 0x00E0#16).events = [.step 0x8001#16 0xA7#8] ∧
    (∃ t, step { readyAt 0x200#16 0x00E0#16 with fault := .outOfRange } = .next t) ∧
    (∃ t, step { State.reset with events := [.timerTick] } = .next t) :=
  ⟨⟨_, rfl⟩, rfl, rfl, ⟨_, rfl⟩, ⟨_, rfl⟩⟩

theorem witness_HaltedStepChangesNothing :
    ({ readyAt 0x200#16 0x00E0#16 with fault := .stackOverflow } : State).Halted ∧
    ({ readyAt 0x200#16 0x00E0#16 with fault := .stackOverflow } : State).events = [.step 0x8001#16 0xA7#8] := by decide

theorem witness_OnlyResetLeavesHalted :
    ({ State.reset with fault := .stackUnderflow, events := [.timerTick] } : State).Halted ∧
    (∀ rom es, ({ State.reset with fault := .stackUnderflow, events := [.timerTick] } : State).events ≠ .reset rom :: es) ∧
    (∀ rom es, ({ State.reset with fault := .stackUnderflow } : State).events ≠ .reset rom :: es) :=
  ⟨by decide, nofun, nofun⟩

theorem witness_AwaitingKeyPoll_held :
    ({ readyAt 0x200#16 0xF50A#16 with wait := true, keys := 0x8001#16 } : State).AwaitingKey ∧
    (∀ j, (0x8001#16 : Keys).getLsbD j = true →
      ({ readyAt 0x200#16 0xF50A#16 with wait := true, keys := 0x8001#16 } : State).keys.getLsbD j = true) :=
  ⟨by decide, fun _ h => h⟩

theorem witness_AwaitingKeyPoll_rising :
    ({ readyAt 0x200#16 0xF50A#16 with wait := true, keys := 0x0001#16 } : State).AwaitingKey ∧
    (0x8001#16 : Keys).getLsbD 15 = true ∧
    ({ readyAt 0x200#16 0xF50A#16 with wait := true, keys := 0x0001#16 } : State).keys.getLsbD 15 = false := by decide

theorem witness_TimerTickCountsDown :
    ({ State.reset with dt := 0#8, st := 255#8, events := [.timerTick] } : State).Running ∧
    ¬ ({ State.reset with dt := 1#8, wait := true, events := [.timerTick] } : State).Running ∧
    ¬ ({ State.reset with dt := 1#8, fault := .outOfRange, events := [.timerTick] } : State).Running := by decide

theorem witness_UnscheduledStepIsTicksThenStep : State.reset.events = [] := rfl

/-- The word at `pc` is LD ST,V0, so the clause for `DT` applies although `ST` is stored. -/
theorem witness_TimersNeverIncrease :
    (∃ t, step (readyAt 0x200#16 0xF018#16) = .next t) ∧
    (∀ rom es, (readyAt 0x200#16 0xF018#16).events ≠ .reset rom :: es) ∧
    (∀ w x, (readyAt 0x200#16 0xF018#16).fetch = some w → decode w ≠ .ldDtVx x) ∧
    (∃ t, step (readyAt 0x200#16 0xF015#16) = .next t) ∧
    (∀ rom es, (readyAt 0x200#16 0xF015#16).events ≠ .reset rom :: es) ∧
    (∀ w x, (readyAt 0x200#16 0xF015#16).fetch = some w → decode w ≠ .ldStVx x) := by
  refine ⟨⟨_, rfl⟩, nofun, fun w x h => ?_, ⟨_, rfl⟩, nofun, fun w x h => ?_⟩
  · have hw : (0xF018#16 : Word) = w := Option.some.inj h
    rw [← hw]
    nofun
  · have hw : (0xF015#16 : Word) = w := Option.some.inj h
    rw [← hw]
    nofun

theorem witness_RedrawPulse :
    (∃ t, step (readyAt 0x200#16 0x00E0#16) = .next t ∧ t.fault = .none) ∧ (readyAt 0x200#16 0x00E0#16).Running ∧
    (readyAt 0x200#16 0x00E0#16).fetch = some 0x00E0#16 ∧ decode 0x00E0#16 = .cls ∧
    (∃ t, step (readyAt 0x200#16 0x00E1#16) = .next t ∧ t.redraw = false) :=
  ⟨⟨_, rfl, rfl⟩, by decide, by decide, by decide, ⟨_, rfl, rfl⟩⟩

theorem witness_ResetInstallsResetValues :
    (∀ rom, ({ State.reset with fault := .outOfRange, events := [.reset rom] } : State).events = .reset rom :: []) ∧
    ([] : List Byte).length ≤ 3584 ∧ (List.replicate 3584 0xFF#8).length ≤ 3584 ∧
    3584 < (List.replicate 3585 0xFF#8).length := by
  refine ⟨fun _ => rfl, ?_⟩
  simp only [List.length_replicate, List.length_nil]
  omega

theorem witness_WithFetchWordRunsNext :
    State.reset.mem.wf ∧ ({ State.reset with pc := 0xFFFF#16, wait := true, mem := [(0xFFF, 1#8)] } : State).mem.wf := by
  decide

theorem witness_CallPushesItsOwnAddress :
    State.reset.sp.toNat < 15 ∧ ({ State.reset with sp := 14#8 } : State).sp.toNat < 15 ∧
    ({ State.reset with sp := 15#8 } : State).sp.toNat = 15 := by decide

theorem witness_ReturnPopsAndAddsTwo :
    ({ State.reset with sp := 1#8 } : State).sp.toNat = (0 : Fin 16).val + 1 ∧
    ({ State.reset with sp := 15#8 } : State).sp.toNat = (14 : Fin 16).val + 1 ∧ State.reset.sp = 0#8 := by decide

theorem witness_CallThenReturnResumes :
    ∃ t v, ({ State.reset with sp := 14#8 } : State).sp.toNat < 15 ∧
      exec (.call 0x400#12) { State.reset with sp := 14#8 } = .next t ∧ t.sp = t.sp ∧ t.stack = t.stack ∧
      exec .ret t = .next v :=
  ⟨_, _, by decide, rfl, rfl, rfl, rfl⟩

/-- For the clauses of `AddRegisterWithCarry`, `SubtractWithStrictFlag` and `ShiftsByOne` about a destination that is
not `VF`. -/
theorem witness_destination_not_VF : (14#4 : RegIx) ≠ vF := by decide

theorem witness_RandomIsMaskedInput :
    (readyAt 0x200#16 0xCFFF#16).Running ∧ (readyAt 0x200#16 0xCFFF#16).fetch = some (0xC#4 ++ 15#4 ++ 0xFF#8) ∧
    (readyAt 0x200#16 0xCFFF#16).events = [.step 0x8001#16 0xA7#8] := by decide

theorem witness_StoreBcdDigits :
    State.reset.mem.wf ∧ ({ State.reset with i := 0xFFD#16 } : State).i.toNat + 2 < 4096 ∧
    4096 ≤ ({ State.reset with i := 0xFFE#16 } : State).i.toNat + 2 := by decide

theorem witness_StoreRegisters_LoadRegisters :
    State.reset.mem.wf ∧ ({ State.reset with i := 0xFF0#16 } : State).i.toNat + (15#4 : RegIx).toNat < 4096 ∧
    ({ State.reset with i := 0xFFF#16 } : State).i.toNat + (0#4 : RegIx).toNat < 4096 ∧
    4096 ≤ ({ State.reset with i := 0xFF1#16 } : State).i.toNat + (15#4 : RegIx).toNat ∧
    4096 ≤ ({ State.reset with i := 0x1000#16 } : State).i.toNat + (0#4 : RegIx).toNat := by decide

theorem witness_StoreThenLoadRegisters :
    ∃ t, State.reset.mem.wf ∧ ({ withRegs [(15#4, 9#8)] with i := 0xFF0#16 } : State).i.toNat + (15#4 : RegIx).toNat < 4096 ∧
      exec (.stRegs 15#4) { withRegs [(15#4, 9#8)] with i := 0xFF0#16 } = .next t ∧
      (t.setReg 15#4 0#8).mem = t.mem ∧ (t.setReg 15#4 0#8).i = t.i :=
  ⟨_, by decide, by decide, rfl, rfl, rfl⟩

theorem witness_FetchSeesStores :
    ∃ t, State.reset.mem.wf ∧
      exec (.stRegs 15#4) { withRegs [(14#4, 0x12#8), (15#4, 0x34#8)] with i := 0xFF0#16 } = .next t ∧ t.fault = .none ∧
      (15#4 : RegIx).toNat = (14#4 : RegIx).toNat + 1 ∧ (15#4 : RegIx).toNat ≤ (15#4 : RegIx).toNat ∧
      ({ t with pc := 0xFFE#16 } : State).mem = t.mem ∧
      ({ t with pc := 0xFFE#16 } : State).pc.toNat = (0xFF0#16 : Word).toNat + (14#4 : RegIx).toNat :=
  ⟨_, by decide, rfl, rfl, by decide, by decide, rfl, by decide⟩

/-- One memory written in two orders. -/
theorem witness_CanonicalMemoryIsExtensional :
    Mem.wf (Mem.poke (Mem.poke [] 0x300 1#8) 0x200 2#8) ∧ Mem.wf (Mem.poke (Mem.poke [] 0x200 2#8) 0x300 1#8) ∧
    ∀ a, (Mem.poke (Mem.poke [] 0x300 1#8) 0x200 2#8).peek a = (Mem.poke (Mem.poke [] 0x200 2#8) 0x300 1#8).peek a :=
  ⟨by decide, by decide, fun _ => rfl⟩

theorem witness_DrawXorsSprite :
    ({ State.reset with i := 0xFF1#16 } : State).i.toNat + (15#4 : BitVec 4).toNat - 1 < 4096 ∧
    1 ≤ (15#4 : BitVec 4).toNat ∧
    4096 ≤ ({ State.reset with i := 0xFF2#16 } : State).i.toNat + (15#4 : BitVec 4).toNat - 1 ∧
    4096 ≤ ({ State.reset with i := 0x1000#16 } : State).i.toNat + (1#4 : BitVec 4).toNat - 1 := by decide

theorem witness_DrawTwiceRestores :
    ∃ t, (withRegs [(1#4, 63#8), (2#4, 31#8)]).fault = .none ∧
      exec (.drw 1#4 2#4 1#4) (withRegs [(1#4, 63#8), (2#4, 31#8)]) = .next t ∧ t.fault = .none ∧
      t.reg 1#4 = (withRegs [(1#4, 63#8), (2#4, 31#8)]).reg 1#4 ∧
      t.reg 2#4 = (withRegs [(1#4, 63#8), (2#4, 31#8)]).reg 2#4 :=
  ⟨_, rfl, rfl, rfl, by decide, by decide⟩

theorem witness_SkipsOnKey :
    ((withRegs [(2#4, 15#8)]).reg 2#4).toNat < 16 ∧ 16 ≤ ((withRegs [(2#4, 16#8)]).reg 2#4).toNat := by decide

/-- LD V5,K with key 0 already down; the poll finds it still down, and no other. -/
theorem witness_HeldKeyDoesNotResolveWait :
    ∃ t u, ({ readyAt 0x200#16 0xF50A#16 with events := [.step 0x8001#16 0#8, .step 0x0001#16 0#8] } : State).Running ∧
      (readyAt 0x200#16 0xF50A#16).fetch = some 0xF50A#16 ∧ decode 0xF50A#16 = .ldVxK 5#4 ∧
      step { readyAt 0x200#16 0xF50A#16 with events := [.step 0x8001#16 0#8, .step 0x0001#16 0#8] } = .next t ∧
      step t = .next u ∧ ∀ b, (0x0001#16 : Keys).getLsbD b = true → (0x8001#16 : Keys).getLsbD b = true := by
  refine ⟨_, _, by decide, by decide, by decide, rfl, rfl, fun b h => ?_⟩
  have hb : b < 16 := BitVec.lt_of_getLsbD h
  revert h
  exact (by decide : ∀ b : Fin 16, (0x0001#16 : Keys).getLsbD b = true → (0x8001#16 : Keys).getLsbD b = true) ⟨b, hb⟩

/-- A draw that ends on the last byte of memory, a call that fills the last slot used, a store of every register. -/
theorem witness_InstructionsChangeOnlyTheirOwn :
    ((∃ t, exec (.drw 1#4 2#4 1#4) { State.reset with i := 0xFFF#16 } = .next t) ∧
      faultOf (.drw 1#4 2#4 1#4) { State.reset with i := 0xFFF#16 } = .none) ∧
    ((∃ t, exec (.call 0x400#12) { State.reset with sp := 14#8 } = .next t) ∧
      faultOf (.call 0x400#12) { State.reset with sp := 14#8 } = .none ∧
      ({ State.reset with sp := 14#8 } : State).sp.toNat ≤ 15) ∧
    ((∃ t, exec (.stRegs 15#4) { State.reset with i := 0xFF0#16 } = .next t) ∧
      faultOf (.stRegs 15#4) { State.reset with i := 0xFF0#16 } = .none) ∧
    State.reset.mem.wf ∧ State.reset.sp.toNat ≤ 15 :=
  ⟨⟨⟨_, rfl⟩, by decide⟩, ⟨⟨_, rfl⟩, by decide, by decide⟩, ⟨⟨_, rfl⟩, by decide⟩, by decide, by decide⟩

/-- For each clause an instruction that writes the state it speaks of. -/
theorem witness_StateHasOnlyItsNamedWriters :
    (∃ t, exec (.ldI 1#12) State.reset = .next t ∧ t.i ≠ State.reset.i) ∧
    (∃ t, exec (.call 1#12) State.reset = .next t ∧ t.sp ≠ State.reset.sp ∧ t.stack ≠ State.reset.stack) ∧
    (∃ t, exec (.ldDtVx 1#4) (withRegs [(1#4, 1#8)]) = .next t ∧ t.dt ≠ (withRegs [(1#4, 1#8)]).dt) ∧
    (∃ t, exec (.ldStVx 1#4) (withRegs [(1#4, 1#8)]) = .next t ∧ t.st ≠ (withRegs [(1#4, 1#8)]).st) ∧
    (∃ t, exec (.drw 0#4 0#4 1#4) State.reset = .next t ∧ t.fb ≠ State.reset.fb) ∧
    (∃ t, exec (.ldB 1#4) { withRegs [(1#4, 1#8)] with i := 0x300#16 } = .next t ∧ t.mem ≠ State.reset.mem) ∧
    (∃ t, exec (.ldVxK 1#4) State.reset = .next t ∧ t.wait ≠ State.reset.wait) :=
  ⟨⟨_, rfl, by decide⟩, ⟨_, rfl, by decide, by decide⟩, ⟨_, rfl, by decide⟩, ⟨_, rfl, by decide⟩, ⟨_, rfl, by decide⟩,
    ⟨_, rfl, by decide⟩, ⟨_, rfl, by decide⟩⟩

theorem witness_FlagRegisterWriters :
    ∃ t, exec (.addReg 1#4 2#4) (withRegs [(1#4, 0xFF#8), (2#4, 1#8)]) = .next t ∧
      t.reg vF ≠ (withRegs [(1#4, 0xFF#8), (2#4, 1#8)]).reg vF :=
  ⟨_, rfl, by decide⟩

theorem witness_FaultsAreExactlyTheListed_PcFollowsTheTable :
    State.reset.sp.toNat ≤ 15 ∧ faultOf .ret State.reset ≠ .none ∧
    ({ State.reset with sp := 15#8 } : State).sp.toNat ≤ 15 ∧ faultOf .ret { State.reset with sp := 15#8 } = .none ∧
    faultOf (.call 0#12) { State.reset with sp := 15#8 } ≠ .none := by decide

theorem witness_FaultsArePrecise :
    ∃ t, (readyAt 0x200#16 0x00EE#16).events = [.step 0x8001#16 0xA7#8] ∧ (readyAt 0x200#16 0x00EE#16).fault = .none ∧
      step (readyAt 0x200#16 0x00EE#16) = .next t ∧ t.fault ≠ .none :=
  ⟨_, rfl, rfl, rfl, by decide⟩

theorem witness_StepKeepsInvariant :
    (∃ t, State.Inv (readyAt 0x200#16 0x24FF#16) ∧ step (readyAt 0x200#16 0x24FF#16) = .next t) ∧
    ∃ t, State.Inv { readyAt 0xFFE#16 0xF50A#16 with wait := true, sp := 15#8 } ∧
      step { readyAt 0xFFE#16 0xF50A#16 with wait := true, sp := 15#8 } = .next t :=
  ⟨⟨_, by decide, rfl⟩, ⟨_, by decide, rfl⟩⟩

theorem witness_StepAlwaysAnswers :
    State.reset.Inv ∧ (∀ e es, State.reset.events = e :: es → e.admissible = true) ∧
    (Event.reset (List.replicate 3584 0#8)).admissible = true := by
  refine ⟨by decide, nofun, ?_⟩
  simp only [Event.admissible, List.length_replicate]
  decide

theorem witness_FinishedStaysFinished :
    (readyAt 0xFFE#16 0x1FFE#16).FinishedAt 0xFFE#12 ∧
    (∀ rom es, (readyAt 0xFFE#16 0x1FFE#16).events ≠ .reset rom :: es) ∧
    ({ readyAt 0x200#16 0x1200#16 with events := [.timerTick], dt := 3#8 } : State).FinishedAt 0x200#12 :=
  ⟨by decide, nofun, by decide⟩

theorem witness_noninterference :
    (∀ x, Instr.ldDtVx 3#4 ≠ .ldStVx x) ∧ (∀ x kk, Instr.ldImm 3#4 7#8 ≠ .rnd x kk) ∧
    (∀ x, Instr.ldVxK 3#4 ≠ .skp x ∧ Instr.ldVxK 3#4 ≠ .sknp x) ∧
    (∀ x y n, Instr.nop0 0#12 ≠ .drw x y n) ∧ Instr.nop0 0#12 ≠ .cls :=
  ⟨nofun, nofun, fun _ => ⟨nofun, nofun⟩, nofun, nofun⟩

end Sys2Proof.Tests
end

namespace Sys2Proof.Machine

/-! ### Frames: what each update of one field leaves unchanged -/

section Frames

variable {A : Part → Prop} {s u : State}

/-- Nothing changes from a state to itself. -/
theorem ChangesOnly.refl (A : Part → Prop) (s : State) : ChangesOnly A s s := by
  intro p _
  cases p <;> rfl

theorem ChangesOnly.setReg {x : RegIx} {b : Byte} (h : ChangesOnly A s u) (hx : A (.reg x)) :
    ChangesOnly A s (u.setReg x b) := by
  intro p hp
  cases p with
  | reg r =>
    have hr : r ≠ x := by rintro rfl; exact hp hx
    exact (State.setReg_reg u x r b).trans ((if_neg hr).trans (h _ hp))
  | _ => exact h _ hp

theorem ChangesOnly.setI {w : Word} (h : ChangesOnly A s u) (hi : A .i) : ChangesOnly A s { u with i := w } := by
  intro p hp
  cases p with
  | i => exact absurd hi hp
  | _ => exact h _ hp

theorem ChangesOnly.setPc {w : Word} (h : ChangesOnly A s u) (hpc : A .pc) : ChangesOnly A s { u with pc := w } := by
  intro p hp
  cases p with
  | pc => exact absurd hpc hp
  | _ => exact h _ hp

theorem ChangesOnly.advance {n : Word} (h : ChangesOnly A s u) (hpc : A .pc) : ChangesOnly A s (u.advance n) :=
  h.setPc hpc

theorem ChangesOnly.setPcSp {w : Word} {b : Byte} (h : ChangesOnly A s u) (hpc : A .pc) (hsp : A .sp) :
    ChangesOnly A s { u with pc := w, sp := b } := by
  intro p hp
  cases p with
  | pc => exact absurd hpc hp
  | sp => exact absurd hsp hp
  | _ => exact h _ hp

/-- Writing one stack slot changes that slot alone. -/
theorem ChangesOnly.setSlot {k : Nat} {w : Word} (h : ChangesOnly A s u) (hk : k < 16) (hslot : A (.slot ⟨k, hk⟩)) :
    ChangesOnly A s { u with stack := u.stack.set k w hk } := by
  intro p hp
  cases p with
  | slot j =>
    have hj : k ≠ j.val := by rintro rfl; exact hp hslot
    exact (Vector.getElem_set_ne hk j.isLt hj).trans (h _ hp)
  | _ => exact h _ hp

theorem ChangesOnly.setDt {b : Byte} (h : ChangesOnly A s u) (hdt : A .dt) : ChangesOnly A s { u with dt := b } := by
  intro p hp
  cases p with
  | dt => exact absurd hdt hp
  | _ => exact h _ hp

theorem ChangesOnly.setSt {b : Byte} (h : ChangesOnly A s u) (hst : A .st) : ChangesOnly A s { u with st := b } := by
  intro p hp
  cases p with
  | st => exact absurd hst hp
  | _ => exact h _ hp

/-- Another memory is no change outside the bytes that are allowed to differ. -/
theorem ChangesOnly.setMem {m : Mem} (h : ChangesOnly A s u) (hm : ∀ a, ¬ A (.byte a) → m.peek a = s.mem.peek a) :
    ChangesOnly A s { u with mem := m } := by
  intro p hp
  cases p with
  | byte a => exact hm a hp
  | _ => exact h _ hp

/-- Another bitmap, with the redraw pulse, is no change outside the pixels that are allowed to differ. -/
theorem ChangesOnly.setDisplay {fb : Bitmap} {b : Bool} (h : ChangesOnly A s u) (hr : A .redraw)
    (hfb : ∀ q, ¬ A (.pixel q) → fb.pixelAt q = s.fb.pixelAt q) :
    ChangesOnly A s { u with fb := fb, redraw := b } := by
  intro p hp
  cases p with
  | pixel q => exact hfb q hp
  | redraw => exact absurd hr hp
  | _ => exact h _ hp

theorem ChangesOnly.setWait {b : Bool} {x : RegIx} (h : ChangesOnly A s u) (hw : A .wait) (hd : A .waitDest) :
    ChangesOnly A s { u with wait := b, waitDest := x } := by
  intro p hp
  cases p with
  | wait => exact absurd hw hp
  | waitDest => exact absurd hd hp
  | _ => exact h _ hp

/-- Loading registers changes those that the list reaches and nothing else. -/
theorem ChangesOnly.setRegsFrom {bs : List Byte} {x : Nat} (h : ChangesOnly A s u) (hlen : x + bs.length ≤ 16)
    (hr : ∀ r : RegIx, x ≤ r.toNat → r.toNat < x + bs.length → A (.reg r)) :
    ChangesOnly A s (u.setRegsFrom x bs) := by
  intro p hp
  cases p with
  | reg r =>
    have hout : ¬ (x ≤ r.toNat ∧ r.toNat < x + bs.length) := fun ⟨hlo, hhi⟩ => hp (hr r hlo hhi)
    exact (State.setRegsFrom_reg bs u x hlen r).trans ((if_neg hout).trans (h _ hp))
  | _ => rw [State.setRegsFrom_rest]; exact h _ hp

end Frames

/-! ### What an instruction answers where it may fault -/

section Inversion

variable {s t : State} {x y : RegIx}

theorem Mem.readBlock_eq_none {m : Mem} {a n : Nat} : m.readBlock a n = none ↔ n ≠ 0 ∧ 4096 < a + n := by
  unfold Mem.readBlock
  split <;> simp <;> omega

theorem Mem.writeBlock_eq_none {m : Mem} {a : Nat} {bs : List Byte} :
    m.writeBlock a bs = none ↔ 4096 < a + bs.length := by
  unfold Mem.writeBlock
  split <;> simp <;> omega

theorem State.keyIndex_eq_none : s.keyIndex x = none ↔ 16 ≤ (s.reg x).toNat := by
  unfold State.keyIndex
  split <;> simp <;> omega

/-- RET: a pop, or StackUnderflow where the stack is empty (R77). -/
theorem exec_ret_cases (h : exec .ret s = .next t) :
    (∃ j : Fin 16, s.sp.toNat = j.val + 1 ∧ t = { s with pc := s.stack[j] + 2#16, sp := s.sp - 1#8 }) ∨
    (s.sp = 0#8 ∧ t = { s with fault := .stackUnderflow }) := by
  simp only [exec, execRet] at h
  split at h
  · next hsp => exact .inr ⟨hsp, raise_eq_next.mp h⟩
  · next hsp =>
    split at h
    · next a ha =>
      obtain ⟨hj, rfl⟩ := Vector.getElem?_eq_some_iff.mp ha
      have hpos : s.sp.toNat ≠ 0 := fun h0 => hsp (BitVec.eq_of_toNat_eq h0)
      exact .inl ⟨⟨_, hj⟩, (Nat.succ_pred hpos).symm, by cases h; rfl⟩
    · cases h

/-- CALL: a push, or StackOverflow where 15 return addresses are held (R79). -/
theorem exec_call_cases {nnn : Addr} (h : exec (.call nnn) s = .next t) :
    (∃ hsp : s.sp.toNat < 15, t =
      { s with stack := s.stack.set s.sp.toNat s.pc (by omega), sp := s.sp + 1#8, pc := addrOf nnn }) ∨
    (15 ≤ s.sp.toNat ∧ t = { s with fault := .stackOverflow }) := by
  simp only [exec, execCall] at h
  split at h
  · next hsp => exact .inl ⟨hsp, by cases h; rfl⟩
  · next hsp => exact .inr ⟨by omega, raise_eq_next.mp h⟩

/-! An instruction that checks a range first, as an equation: the check, then what is done with its answer. -/

theorem exec_drw (x y : RegIx) (n : BitVec 4) (s : State) :
    exec (.drw x y n) s = (s.mem.readBlock s.base n.toNat).elim (raise .outOfRange s) fun rows =>
      let cv := Canvas.drawRows ((s.reg x).toNat % 64) ((s.reg y).toNat % 32) rows (s.fb, false)
      fallThrough (({ s with fb := cv.1, redraw := true } : State).setReg vF (flagByte cv.2)) := by
  simp only [exec, execDrw]; cases s.mem.readBlock s.base n.toNat <;> rfl

theorem exec_ldB (x : RegIx) (s : State) :
    exec (.ldB x) s = (s.mem.writeBlock s.base (bcdDigits (s.reg x))).elim (raise .outOfRange s) fun m =>
      fallThrough { s with mem := m } := by
  simp only [exec, execLdB]; cases s.mem.writeBlock s.base (bcdDigits (s.reg x)) <;> rfl

theorem exec_stRegs (x : RegIx) (s : State) :
    exec (.stRegs x) s = (s.mem.writeBlock s.base (s.regsBelow (x.toNat + 1))).elim (raise .outOfRange s) fun m =>
      fallThrough { s with mem := m } := by
  simp only [exec, execStRegs]; cases s.mem.writeBlock s.base (s.regsBelow (x.toNat + 1)) <;> rfl

theorem exec_ldRegs (x : RegIx) (s : State) :
    exec (.ldRegs x) s = (s.mem.readBlock s.base (x.toNat + 1)).elim (raise .outOfRange s) fun bs =>
      fallThrough (s.setRegsFrom 0 bs) := by
  simp only [exec, execLdRegs]; cases s.mem.readBlock s.base (x.toNat + 1) <;> rfl

theorem exec_skp (x : RegIx) (s : State) :
    exec (.skp x) s = (s.keyIndex x).elim (raise .outOfRange s) fun k => skipIf (s.key k) s := by
  simp only [exec, execSkp]; cases s.keyIndex x <;> rfl

theorem exec_sknp (x : RegIx) (s : State) :
    exec (.sknp x) s = (s.keyIndex x).elim (raise .outOfRange s) fun k => skipIf (!s.key k) s := by
  simp only [exec, execSknp]; cases s.keyIndex x <;> rfl

/-- An operation that may leave its range: done with what the range check gives, or a fault and nothing else. -/
theorem checked_eq_next {α : Type} {o : Option α} {f : α → Out} {c : FaultCode}
    (h : o.elim (raise c s) f = .next t) :
    (∃ a, o = some a ∧ f a = .next t) ∨ (o = none ∧ t = { s with fault := c }) := by
  cases o with
  | some a => exact .inl ⟨a, rfl, h⟩
  | none => exact .inr ⟨rfl, raise_eq_next.mp h⟩

/-- DRW: a sprite drawn, or OutOfRange where its rows leave memory (R122). -/
theorem exec_drw_cases {n : BitVec 4} (h : exec (.drw x y n) s = .next t) :
    (∃ rows cv, s.mem.readBlock s.base n.toNat = some rows ∧
      cv = Canvas.drawRows ((s.reg x).toNat % 64) ((s.reg y).toNat % 32) rows (s.fb, false) ∧
      t = (({ s with fb := cv.1, redraw := true } : State).setReg vF (flagByte cv.2)).advance 2#16) ∨
    (s.mem.readBlock s.base n.toNat = none ∧ t = { s with fault := .outOfRange }) :=
  (checked_eq_next ((exec_drw ..).symm.trans h)).imp_left fun ⟨rows, hrows, hnext⟩ =>
    ⟨rows, _, hrows, rfl, fallThrough_eq_next.mp hnext⟩

/-- LD B,Vx: three digits stored, or OutOfRange (R114). -/
theorem exec_ldB_cases (h : exec (.ldB x) s = .next t) :
    (∃ m, s.mem.writeBlock s.base (bcdDigits (s.reg x)) = some m ∧
      t = ({ s with mem := m } : State).advance 2#16) ∨
    (s.mem.writeBlock s.base (bcdDigits (s.reg x)) = none ∧ t = { s with fault := .outOfRange }) :=
  (checked_eq_next ((exec_ldB ..).symm.trans h)).imp_left fun ⟨m, hm, hnext⟩ => ⟨m, hm, fallThrough_eq_next.mp hnext⟩

/-- LD [I],Vx: registers stored, or OutOfRange (R116). -/
theorem exec_stRegs_cases (h : exec (.stRegs x) s = .next t) :
    (∃ m, s.mem.writeBlock s.base (s.regsBelow (x.toNat + 1)) = some m ∧
      t = ({ s with mem := m } : State).advance 2#16) ∨
    (s.mem.writeBlock s.base (s.regsBelow (x.toNat + 1)) = none ∧ t = { s with fault := .outOfRange }) :=
  (checked_eq_next ((exec_stRegs ..).symm.trans h)).imp_left fun ⟨m, hm, hnext⟩ => ⟨m, hm, fallThrough_eq_next.mp hnext⟩

/-- LD Vx,[I]: registers loaded, or OutOfRange (R117). -/
theorem exec_ldRegs_cases (h : exec (.ldRegs x) s = .next t) :
    (∃ bs, s.mem.readBlock s.base (x.toNat + 1) = some bs ∧ t = (s.setRegsFrom 0 bs).advance 2#16) ∨
    (s.mem.readBlock s.base (x.toNat + 1) = none ∧ t = { s with fault := .outOfRange }) :=
  (checked_eq_next ((exec_ldRegs ..).symm.trans h)).imp_left fun ⟨bs, hbs, hnext⟩ =>
    ⟨bs, hbs, fallThrough_eq_next.mp hnext⟩

/-- SKP Vx: a skip on the level of a key, or OutOfRange where `V[x]` names no key (R130, R136). -/
theorem exec_skp_cases (h : exec (.skp x) s = .next t) :
    (∃ k, s.keyIndex x = some k ∧ t = s.advance (if s.key k then 4#16 else 2#16)) ∨
    (s.keyIndex x = none ∧ t = { s with fault := .outOfRange }) :=
  (checked_eq_next ((exec_skp ..).symm.trans h)).imp_left fun ⟨k, hk, hnext⟩ => ⟨k, hk, skipIf_eq_next.mp hnext⟩

/-- SKNP Vx: likewise, on the key being up (R131, R136). -/
theorem exec_sknp_cases (h : exec (.sknp x) s = .next t) :
    (∃ k, s.keyIndex x = some k ∧ t = s.advance (if !s.key k then 4#16 else 2#16)) ∨
    (s.keyIndex x = none ∧ t = { s with fault := .outOfRange }) :=
  (checked_eq_next ((exec_sknp ..).symm.trans h)).imp_left fun ⟨k, hk, hnext⟩ => ⟨k, hk, skipIf_eq_next.mp hnext⟩

end Inversion

end Sys2Proof.Machine

namespace Sys2Proof.Machine

/-! ### The invariant -/

/-- Settles O54: the reset state is one closed state. -/
theorem resetMeetsInvariant : Obligations.ResetMeetsInvariant := by
  unfold Obligations.ResetMeetsInvariant
  decide

section Invariant

variable {s t : State}

/-- A machine about to execute the word it has fetched: it meets the invariant, is Running, and `pc` named a word. -/
def State.Fetched (s : State) : Prop := s.Inv ∧ s.Running ∧ s.pc.toNat ≤ 0x0FFE

/-- The bound that JP V0,nnn sets: the greatest `nnn` and the greatest byte (R13, R88). -/
theorem addrOf_add_byte_le (nnn : Addr) (b : Byte) : (addrOf nnn + b.setWidth 16).toNat ≤ 0x10FE := by
  have hnnn := nnn.isLt
  have hb := b.isLt
  simp only [addrOf, BitVec.toNat_add, BitVec.toNat_setWidth]
  omega

theorem addrOf_le (nnn : Addr) : (addrOf nnn).toNat ≤ 0x10FE := by
  simpa using addrOf_add_byte_le nnn 0#8

/-- Falling through or skipping from a fetched word stays within the bound of `pc` (R13, R66). -/
theorem add_two_or_four_le {w n : Word} (hw : w.toNat ≤ 0x0FFE) (hn : n = 2#16 ∨ n = 4#16) :
    (w + n).toNat ≤ 0x10FE := by
  rcases hn with rfl | rfl <;> simp only [BitVec.toNat_add, BitVec.toNat_ofNat] <;> omega

/-- A machine that awaits no key keeps the invariant when it latches a fault. -/
theorem State.Inv.setFault (hs : s.Inv) (hwait : s.wait = false) (c : FaultCode) :
    State.Inv { s with fault := c } := by
  obtain ⟨hmem, hsp, hslot, hstack, hpc, _⟩ := hs
  exact ⟨hmem, hsp, hslot, hstack, hpc, by simp [hwait]⟩

namespace State.Fetched

theorem inv_setFault (hs : s.Fetched) (c : FaultCode) : State.Inv { s with fault := c } := by
  obtain ⟨hinv, ⟨_, hwait⟩, _⟩ := hs
  exact State.Inv.setFault hinv hwait c

/-- An executing machine keeps the invariant wherever `pc` goes within its bound. -/
theorem inv_setPc (hs : s.Fetched) {w : Word} (hw : w.toNat ≤ 0x10FE) : State.Inv { s with pc := w } := by
  obtain ⟨⟨hmem, hsp, hslot, hstack, _, _⟩, ⟨_, hwait⟩, _⟩ := hs
  exact ⟨hmem, hsp, hslot, hstack, hw, by simp [hwait]⟩

theorem inv_advance (hs : s.Fetched) {n : Word} (hn : n = 2#16 ∨ n = 4#16) : (s.advance n).Inv := by
  have ⟨_, _, hpc⟩ := hs
  exact hs.inv_setPc (add_two_or_four_le hpc hn)

theorem inv_skip (hs : s.Fetched) (c : Bool) : (s.advance (if c then 4#16 else 2#16)).Inv :=
  hs.inv_advance (by cases c <;> simp)

theorem inv_of_fallThrough (h : fallThrough s = .next t) (hs : s.Fetched) : t.Inv :=
  fallThrough_eq_next.mp h ▸ hs.inv_advance (.inl rfl)

theorem inv_of_skipIf {c : Bool} (h : skipIf c s = .next t) (hs : s.Fetched) : t.Inv :=
  skipIf_eq_next.mp h ▸ hs.inv_skip c

theorem mem_wf (hs : s.Fetched) : s.mem.wf := by
  obtain ⟨⟨hmem, _⟩, _⟩ := hs
  exact hmem

theorem setMem (hs : s.Fetched) {m : Mem} (hm : m.wf) : State.Fetched { s with mem := m } := by
  obtain ⟨⟨_, hrest⟩, hrun⟩ := hs
  exact ⟨⟨hm, hrest⟩, hrun⟩

/-- CALL keeps the invariant: below 15 it pushes a fetched address to a slot other than the last (R14, R15, R79). -/
theorem inv_push (hs : s.Fetched) (hlt : s.sp.toNat < 15) (nnn : Addr) :
    State.Inv { s with stack := s.stack.set s.sp.toNat s.pc (by omega), sp := s.sp + 1#8, pc := addrOf nnn } := by
  obtain ⟨⟨hmem, _, hslot, hstack, _, _⟩, ⟨_, hwait⟩, hpc⟩ := hs
  refine ⟨hmem, ?_, ?_, fun j => ?_, addrOf_le nnn, by simp [hwait]⟩
  · simp only [BitVec.toNat_add, BitVec.toNat_ofNat]
    omega
  · exact (Vector.getElem_set_ne (x := s.pc) (by omega) (by omega) (by omega)).trans hslot
  · simp only [Fin.getElem_fin, Vector.getElem_set]
    split
    · exact hpc
    · exact hstack j

/-- RET keeps the invariant: the popped address is one that was fetched (R77). -/
theorem inv_pop (hs : s.Fetched) {j : Fin 16} (hj : s.sp.toNat = j.val + 1) :
    State.Inv { s with pc := s.stack[j] + 2#16, sp := s.sp - 1#8 } := by
  obtain ⟨⟨hmem, hsp, hslot, hstack, _, _⟩, ⟨_, hwait⟩, _⟩ := hs
  refine ⟨hmem, ?_, hslot, hstack, add_two_or_four_le (hstack j) (.inl rfl), by simp [hwait]⟩
  simp only [BitVec.toNat_sub, BitVec.toNat_ofNat]
  omega

/-- LD Vx,K keeps the invariant: it begins to wait at a fetched word, with no fault latched (R133). -/
theorem inv_wait (hs : s.Fetched) (x : RegIx) : State.Inv { s with wait := true, waitDest := x } := by
  obtain ⟨⟨hmem, hsp, hslot, hstack, hpc, _⟩, ⟨hfault, _⟩, hfetched⟩ := hs
  exact ⟨hmem, hsp, hslot, hstack, hpc, fun _ => ⟨hfetched, hfault⟩⟩

/-- Every instruction keeps the invariant. Those of the last case only fall through, from a state that differs from
`s` in nothing the invariant speaks of. -/
theorem inv_exec (hs : s.Fetched) {i : Instr} (h : exec i s = .next t) : t.Inv := by
  cases i with
  | ret =>
    obtain ⟨j, hj, rfl⟩ | ⟨_, rfl⟩ := exec_ret_cases h
    · exact hs.inv_pop hj
    · exact hs.inv_setFault _
  | jp nnn => cases h; exact hs.inv_setPc (addrOf_le nnn)
  | jpV0 nnn => cases h; exact hs.inv_setPc (addrOf_add_byte_le nnn _)
  | call nnn =>
    obtain ⟨hlt, rfl⟩ | ⟨_, rfl⟩ := exec_call_cases h
    · exact hs.inv_push hlt nnn
    · exact hs.inv_setFault _
  | seImm | sneImm | seReg | sneReg => exact inv_of_skipIf h hs
  | skp =>
    obtain ⟨_, _, rfl⟩ | ⟨_, rfl⟩ := exec_skp_cases h
    · exact hs.inv_skip _
    · exact hs.inv_setFault _
  | sknp =>
    obtain ⟨_, _, rfl⟩ | ⟨_, rfl⟩ := exec_sknp_cases h
    · exact hs.inv_skip _
    · exact hs.inv_setFault _
  | ldVxK x => cases h; exact hs.inv_wait x
  | drw =>
    obtain ⟨_, _, _, _, rfl⟩ | ⟨_, rfl⟩ := exec_drw_cases h
    · exact hs.inv_advance (.inl rfl)
    · exact hs.inv_setFault _
  | ldB =>
    obtain ⟨_, hm, rfl⟩ | ⟨_, rfl⟩ := exec_ldB_cases h
    · exact (hs.setMem (Mem.wf_writeBlock hs.mem_wf hm)).inv_advance (.inl rfl)
    · exact hs.inv_setFault _
  | stRegs =>
    obtain ⟨_, hm, rfl⟩ | ⟨_, rfl⟩ := exec_stRegs_cases h
    · exact (hs.setMem (Mem.wf_writeBlock hs.mem_wf hm)).inv_advance (.inl rfl)
    · exact hs.inv_setFault _
  | ldRegs =>
    obtain ⟨_, _, rfl⟩ | ⟨_, rfl⟩ := exec_ldRegs_cases h
    · rw [State.setRegsFrom_rest]
      exact hs.inv_advance (.inl rfl)
    · exact hs.inv_setFault _
  | _ => exact inv_of_fallThrough h hs

end State.Fetched

/-- The end of a key wait keeps the invariant: `pc` leaves the fetched word at which the machine waited (R70). -/
theorem State.Inv.poll (hs : s.Inv) (hwait : s.wait = true) (old : Keys) : (s.poll old).Inv := by
  obtain ⟨_, hpoll⟩ | ⟨_, _, _, _, _, hpoll⟩ := State.poll_cases old s
  · rw [hpoll]
    exact hs
  · obtain ⟨hmem, hsp, hslot, hstack, _, hw⟩ := hs
    obtain ⟨hpc, _⟩ := hw hwait
    rw [hpoll]
    exact ⟨hmem, hsp, hslot, hstack, add_two_or_four_le hpc (.inl rfl), nofun⟩

/-- A Step keeps the invariant, whatever its inputs (R61). -/
theorem State.Inv.coreStep (hs : s.Inv) {k : Keys} {r : Byte} (h : coreStep k r s = .next t) : t.Inv := by
  have hsample : (s.sample k r).Inv := hs
  obtain ⟨_, heq⟩ | ⟨_, hwait, heq⟩ | ⟨hfault, hwait, w, hw, heq⟩ | ⟨_, hwait, _, heq⟩ := coreStep_cases k r s
  · cases heq.symm.trans h
    exact hs
  · cases heq.symm.trans h
    exact hsample.poll hwait _
  · obtain ⟨hpc, _⟩ := State.fetch_eq_some.mp hw
    have hfetched : (s.sample k r).Fetched := ⟨hs, ⟨hfault, hwait⟩, show s.pc.toNat ≤ 0x0FFE by omega⟩
    exact hfetched.inv_exec (heq.symm.trans h)
  · cases heq.symm.trans h
    exact hsample.setFault hwait _

theorem State.Inv.timerTick (hs : s.Inv) : s.timerTick.Inv := by
  rw [State.timerTick_rest]
  exact hs

theorem State.Inv.ticks (hs : s.Inv) (n : Nat) : (s.ticks n).Inv := by
  rw [State.ticks_rest]
  exact hs

/-- Reset keeps the invariant: it brings the reset state, with an image that fits (R160, R161). -/
theorem inv_of_doReset {rom : List Byte} (h : doReset rom s = .next t) : t.Inv := by
  obtain ⟨hlen, heq⟩ | ⟨_, heq⟩ := doReset_cases rom s
  · cases heq.symm.trans h
    obtain ⟨_, hrest⟩ : State.reset.Inv := resetMeetsInvariant
    exact ⟨Mem.wf_image rom 0x200 (by omega), hrest⟩
  · cases heq.symm.trans h

end Invariant

/-- Settles O53, event by event: Reset, Step, TimerTick, and the free TimerTicks and Step of an empty schedule. -/
theorem stepKeepsInvariant : Obligations.StepKeepsInvariant := by
  intro s t hs h
  obtain ⟨rom, es, _, heq⟩ | ⟨k, r, es, _, heq⟩ | ⟨es, _, heq⟩ | ⟨_, heq⟩ := nextEvent_cases s
  · exact inv_of_doReset (heq.symm.trans h)
  · have hquiet : State.Inv { s with events := es, redraw := false } := hs
    exact hquiet.coreStep (heq.symm.trans h)
  · have hquiet : State.Inv { s with events := es, redraw := false } := hs
    cases heq.symm.trans h
    exact hquiet.timerTick
  · have hquiet : State.Inv { s with clock := s.clock + 1, redraw := false } := hs
    exact (hquiet.ticks _).coreStep (heq.symm.trans h)

end Sys2Proof.Machine

namespace Sys2Proof.Machine

/-! ### What every instruction may change -/

section Writes

variable {i : Instr} {s t : State}

/-- Outside the sprite's area a drawn bitmap has the pixels it had (R122). -/
theorem pixelAt_drawRows_of_not_spriteArea {x y : RegIx} {n : BitVec 4} {rows : List Byte} {q : Nat}
    (hrows : s.mem.readBlock s.base n.toNat = some rows) (hq : ¬ spriteArea s x y n q) (hit : Bool) :
    (Canvas.drawRows ((s.reg x).toNat % 64) ((s.reg y).toNat % 32) rows (s.fb, hit)).1.pixelAt q =
      s.fb.pixelAt q := by
  have hlen : rows.length = n.toNat := by
    obtain ⟨_, rfl⟩ := Mem.readBlock_eq_some.mp hrows
    exact Mem.peeks_length ..
  have hn := n.isLt
  obtain ⟨hpixel, _⟩ := Canvas.drawRows_spec ((s.reg x).toNat % 64) rows ((s.reg y).toNat % 32) (s.fb, hit) (by omega)
  have hmiss : ¬ Canvas.rowHit ((s.reg x).toNat % 64) ((s.reg y).toNat % 32) rows q := by
    rintro ⟨r, c, hr, hc, _, hrc⟩
    exact hq ⟨r, c, by omega, hc, hrc⟩
  simp [hpixel q, hmiss]

/-- An instruction completes, changing only what its rule lists and some bytes of memory (`exec_mem` says which), or
it latches a fault, which with `sp ≤ 15` is a fault of the tables (R142 to R144), and changes nothing else. -/
theorem exec_completes_or_raises {A : Part → Prop} (hA : ∀ p, writes i s p → A p) (hbyte : ∀ a, A (.byte a))
    (h : exec i s = .next t) :
    ChangesOnly A s t ∨
    ∃ c, t = { s with fault := c } ∧ (s.sp.toNat ≤ 15 → faultOf i s = c) ∧ c ≠ .none := by
  have same := ChangesOnly.refl A s
  cases i with
  | cls =>
    obtain rfl := fallThrough_eq_next.mp h
    exact .inl ((same.setDisplay (hA _ (.inr (.inl rfl)))
      fun q hq => absurd (hA _ (.inr (.inr ⟨q, rfl⟩))) hq).advance (hA _ (.inl rfl)))
  | ret =>
    obtain ⟨j, _, rfl⟩ | ⟨hsp, rfl⟩ := exec_ret_cases h
    · exact .inl (same.setPcSp (hA _ (.inl rfl)) (hA _ (.inr rfl)))
    · exact .inr ⟨_, rfl, fun _ => by simp [faultOf, hsp], by decide⟩
  | jp | jpV0 => cases h; exact .inl (same.setPc (hA _ rfl))
  | call =>
    obtain ⟨hlt, rfl⟩ | ⟨hge, rfl⟩ := exec_call_cases h
    · exact .inl ((same.setSlot (by omega) (hA _ (.inr (.inr ⟨_, rfl, rfl⟩)))).setPcSp (hA _ (.inl rfl))
        (hA _ (.inr (.inl rfl))))
    · refine .inr ⟨_, rfl, fun hle => if_pos ?_, by decide⟩
      exact BitVec.eq_of_toNat_eq (show s.sp.toNat = 15 by omega)
  | seImm | sneImm | seReg | sneReg =>
    obtain rfl := skipIf_eq_next.mp h
    exact .inl (same.advance (hA _ rfl))
  | ldImm | addImm | ldReg | orReg | andReg | xorReg | rnd | ldVxDt =>
    obtain rfl := fallThrough_eq_next.mp h
    exact .inl ((same.setReg (hA _ (.inr rfl))).advance (hA _ (.inl rfl)))
  | addReg =>
    obtain rfl := fallThrough_eq_next.mp h
    exact .inl (((same.setReg (hA _ (.inr (.inl rfl)))).setReg (hA _ (.inr (.inr rfl)))).advance
      (hA _ (.inl rfl)))
  | sub | shr | subn | shl =>
    obtain rfl := fallThrough_eq_next.mp h
    exact .inl (((same.setReg (hA _ (.inr (.inr rfl)))).setReg (hA _ (.inr (.inl rfl)))).advance
      (hA _ (.inl rfl)))
  | ldI | addI | ldF =>
    obtain rfl := fallThrough_eq_next.mp h
    exact .inl ((same.setI (hA _ (.inr rfl))).advance (hA _ (.inl rfl)))
  | drw x y n =>
    obtain ⟨rows, _, hrows, rfl, rfl⟩ | ⟨hnone, rfl⟩ := exec_drw_cases h
    · refine .inl (((same.setDisplay (hA _ (.inr (.inl rfl))) fun q hq => ?_).setReg
        (hA _ (.inr (.inr (.inl rfl))))).advance (hA _ (.inl rfl)))
      exact pixelAt_drawRows_of_not_spriteArea hrows (fun hin => hq (hA _ (.inr (.inr (.inr ⟨q, hin, rfl⟩))))) _
    · obtain ⟨hn, hout⟩ := Mem.readBlock_eq_none.mp hnone
      exact .inr ⟨_, rfl, fun _ => if_pos (show _ ∧ 4096 ≤ s.base + n.toNat - 1 by omega), by decide⟩
  | skp x =>
    obtain ⟨_, _, rfl⟩ | ⟨hnone, rfl⟩ := exec_skp_cases h
    · exact .inl (same.advance (hA _ rfl))
    · exact .inr ⟨_, rfl, fun _ => if_pos (State.keyIndex_eq_none.mp hnone), by decide⟩
  | sknp x =>
    obtain ⟨_, _, rfl⟩ | ⟨hnone, rfl⟩ := exec_sknp_cases h
    · exact .inl (same.advance (hA _ rfl))
    · exact .inr ⟨_, rfl, fun _ => if_pos (State.keyIndex_eq_none.mp hnone), by decide⟩
  | ldVxK => cases h; exact .inl (same.setWait (hA _ (.inl rfl)) (hA _ (.inr rfl)))
  | ldDtVx =>
    obtain rfl := fallThrough_eq_next.mp h
    exact .inl ((same.setDt (hA _ (.inr rfl))).advance (hA _ (.inl rfl)))
  | ldStVx =>
    obtain rfl := fallThrough_eq_next.mp h
    exact .inl ((same.setSt (hA _ (.inr rfl))).advance (hA _ (.inl rfl)))
  | ldB x =>
    obtain ⟨_, _, rfl⟩ | ⟨hnone, rfl⟩ := exec_ldB_cases h
    · exact .inl ((same.setMem fun a ha => absurd (hbyte a) ha).advance (hA _ (.inl rfl)))
    · have hout := Mem.writeBlock_eq_none.mp hnone
      rw [bcdDigits_length] at hout
      exact .inr ⟨_, rfl, fun _ => if_pos (show 4096 ≤ s.base + 2 by omega), by decide⟩
  | stRegs x =>
    obtain ⟨_, _, rfl⟩ | ⟨hnone, rfl⟩ := exec_stRegs_cases h
    · exact .inl ((same.setMem fun a ha => absurd (hbyte a) ha).advance (hA _ (.inl rfl)))
    · have hout := Mem.writeBlock_eq_none.mp hnone
      rw [State.regsBelow_length] at hout
      exact .inr ⟨_, rfl, fun _ => if_pos (show 4096 ≤ s.base + x.toNat by omega), by decide⟩
  | ldRegs x =>
    obtain ⟨bs, hbs, rfl⟩ | ⟨hnone, rfl⟩ := exec_ldRegs_cases h
    · obtain ⟨_, rfl⟩ := Mem.readBlock_eq_some.mp hbs
      have hx := x.isLt
      refine .inl ((same.setRegsFrom ?_ fun r _ hr => hA _ (.inr ⟨r, ?_, rfl⟩)).advance
        (hA _ (.inl rfl))) <;> rw [Mem.peeks_length] at * <;> omega
    · obtain ⟨_, hout⟩ := Mem.readBlock_eq_none.mp hnone
      exact .inr ⟨_, rfl, fun _ => if_pos (show 4096 ≤ s.base + x.toNat by omega), by decide⟩
  | nop0 | nop8 | nopE | nopF =>
    obtain rfl := fallThrough_eq_next.mp h
    exact .inl (same.advance (hA _ rfl))

/-- Memory changes only under the two stores, by the block that each writes from `I` upward (R114, R116). -/
theorem exec_mem (h : exec i s = .next t) :
    t.mem = s.mem ∨
    (∃ x, i = .ldB x ∧ s.base + 3 ≤ 4096 ∧ t.mem = s.mem.pokes s.base (bcdDigits (s.reg x))) ∨
    ∃ x, i = .stRegs x ∧ s.base + (x.toNat + 1) ≤ 4096 ∧ t.mem = s.mem.pokes s.base (s.regsBelow (x.toNat + 1)) := by
  cases i with
  | ret => obtain ⟨_, _, rfl⟩ | ⟨_, rfl⟩ := exec_ret_cases h <;> exact .inl rfl
  | call => obtain ⟨_, rfl⟩ | ⟨_, rfl⟩ := exec_call_cases h <;> exact .inl rfl
  | jp | jpV0 | ldVxK => cases h; exact .inl rfl
  | seImm | sneImm | seReg | sneReg =>
    obtain rfl := skipIf_eq_next.mp h
    exact .inl rfl
  | skp => obtain ⟨_, _, rfl⟩ | ⟨_, rfl⟩ := exec_skp_cases h <;> exact .inl rfl
  | sknp => obtain ⟨_, _, rfl⟩ | ⟨_, rfl⟩ := exec_sknp_cases h <;> exact .inl rfl
  | drw => obtain ⟨_, _, _, _, rfl⟩ | ⟨_, rfl⟩ := exec_drw_cases h <;> exact .inl rfl
  | ldRegs =>
    obtain ⟨_, _, rfl⟩ | ⟨_, rfl⟩ := exec_ldRegs_cases h
    · rw [State.setRegsFrom_rest]
      exact .inl rfl
    · exact .inl rfl
  | ldB x =>
    obtain ⟨_, hm, rfl⟩ | ⟨_, rfl⟩ := exec_ldB_cases h
    · exact .inr (.inl ⟨x, rfl, Mem.writeBlock_eq_some.mp hm⟩)
    · exact .inl rfl
  | stRegs x =>
    obtain ⟨_, hm, rfl⟩ | ⟨_, rfl⟩ := exec_stRegs_cases h
    · obtain ⟨hlen, hpokes⟩ := Mem.writeBlock_eq_some.mp hm
      rw [State.regsBelow_length] at hlen
      exact .inr (.inr ⟨x, rfl, hlen, hpokes⟩)
    · exact .inl rfl
  | _ =>
    obtain rfl := fallThrough_eq_next.mp h
    exact .inl rfl

/-- A byte outside a stored block reads as before. -/
theorem Mem.peek_pokes_of_outside {m : Mem} {a c : Nat} {bs : List Byte} (hm : m.wf) (ha : a + bs.length ≤ 4096)
    (hc : ∀ k, k < bs.length → c ≠ a + k) : (m.pokes a bs).peek c = m.peek c := by
  rw [Mem.peek_pokes hm ha, if_neg]
  rintro ⟨hlo, hhi⟩
  exact hc (c - a) (by omega) (by omega)

/-- Every instruction leaves the bytes that its rule does not list. -/
theorem exec_peek_of_not_writes (hm : s.mem.wf) (h : exec i s = .next t) {a : Nat} (ha : ¬ writes i s (.byte a)) :
    t.mem.peek a = s.mem.peek a := by
  obtain hmem | ⟨x, rfl, hlen, hmem⟩ | ⟨x, rfl, hlen, hmem⟩ := exec_mem h
  · rw [hmem]
  · rw [hmem]
    refine Mem.peek_pokes_of_outside hm hlen fun k hk hak => ha (.inr ⟨k, hk, ?_⟩)
    rw [hak]
  · rw [hmem]
    refine Mem.peek_pokes_of_outside hm (by rwa [State.regsBelow_length]) fun k hk hak => ha (.inr ⟨k, ?_, ?_⟩)
    · rw [State.regsBelow_length] at hk
      omega
    · rw [hak]

/-- Whether or not it faults, an instruction leaves what its rule does not list, bytes and `fault` aside. -/
theorem exec_same_of_not_writes (h : exec i s = .next t) {p : Part} (hfault : p ≠ .fault) (hbyte : ∀ a, p ≠ .byte a)
    (hp : ¬ writes i s p) : p.Same s t := by
  obtain hchanges | ⟨c, rfl, _⟩ :=
    exec_completes_or_raises (A := fun p => writes i s p ∨ ∃ a, p = .byte a) (fun _ => .inl) (fun a => .inr ⟨a, rfl⟩) h
  · exact hchanges p fun hin => hin.elim hp fun ⟨a, ha⟩ => hbyte a ha
  · exact changesOnly_fault s c p hfault

theorem writes_of_not_same (h : exec i s = .next t) {p : Part} (hfault : p ≠ .fault) (hbyte : ∀ a, p ≠ .byte a)
    (hp : ¬ p.Same s t) : writes i s p :=
  not_not.mp (mt (exec_same_of_not_writes h hfault hbyte) hp)

end Writes

/-- Settles O47: an instruction that the fault tables let complete changes only what its rule lists, and of memory
only the bytes of the block it stores. -/
theorem instructionsChangeOnlyTheirOwn : Obligations.InstructionsChangeOnlyTheirOwn := by
  intro i s t hm h hf hsp
  obtain hchanges | ⟨c, _, hc, hne⟩ :=
    exec_completes_or_raises (A := fun p => writes i s p ∨ ∃ a, p = .byte a) (fun _ => .inl) (fun a => .inr ⟨a, rfl⟩) h
  · intro p hp
    by_cases hbyte : ∃ a, p = .byte a
    · obtain ⟨a, rfl⟩ := hbyte
      exact exec_peek_of_not_writes hm h hp
    · exact hchanges p fun hin => hin.elim hp hbyte
  · exact absurd ((hc hsp).symm.trans hf) hne

/-! ### Which instruction writes which part -/

section Writers

variable {i : Instr} {s t : State}

theorem writes_i_iff : writes i s .i ↔ (∃ a, i = .ldI a) ∨ ∃ x, i = .addI x ∨ i = .ldF x := by
  cases i <;> simp [writes]

theorem writes_sp_iff : writes i s .sp ↔ i = .ret ∨ ∃ a, i = .call a := by
  cases i <;> simp [writes]

theorem call_of_writes_slot {j : Fin 16} (h : writes i s (.slot j)) : ∃ a, i = .call a := by
  cases i <;> simp_all [writes]

theorem writes_dt_iff : writes i s .dt ↔ ∃ x, i = .ldDtVx x := by
  cases i <;> simp [writes]

theorem writes_st_iff : writes i s .st ↔ ∃ x, i = .ldStVx x := by
  cases i <;> simp [writes]

theorem cls_or_drw_of_writes_pixel {q : Nat} (h : writes i s (.pixel q)) : i = .cls ∨ ∃ x y n, i = .drw x y n := by
  cases i <;> simp_all [writes]

theorem writes_wait_iff : writes i s .wait ↔ ∃ x, i = .ldVxK x := by
  cases i <;> simp [writes]

theorem writes_waitDest_iff : writes i s .waitDest ↔ ∃ x, i = .ldVxK x := by
  cases i <;> simp [writes]

/-- No instruction writes the inputs, the schedule or the clock. -/
theorem not_writes_surroundings :
    ¬ writes i s .keys ∧ ¬ writes i s .rndIn ∧ ¬ writes i s .events ∧ ¬ writes i s .clock := by
  cases i <;> simp [writes]

theorem exec_surroundings (h : exec i s = .next t) :
    t.keys = s.keys ∧ t.rndIn = s.rndIn ∧ t.events = s.events ∧ t.clock = s.clock := by
  obtain ⟨hkeys, hrnd, hevents, hclock⟩ := not_writes_surroundings (i := i) (s := s)
  exact ⟨exec_same_of_not_writes (p := .keys) h nofun nofun hkeys,
    exec_same_of_not_writes (p := .rndIn) h nofun nofun hrnd,
    exec_same_of_not_writes (p := .events) h nofun nofun hevents,
    exec_same_of_not_writes (p := .clock) h nofun nofun hclock⟩

/-- The instructions whose rule lists `VF`, as a flag or as a register that they name (R11). -/
theorem flag_writers_of_writes_vF (h : writes i s (.reg vF)) :
    (∃ x y, i = .addReg x y ∨ i = .sub x y ∨ i = .shr x y ∨ i = .subn x y ∨ i = .shl x y) ∨
    (∃ x y n, i = .drw x y n) ∨
    (∃ kk, i = .ldImm vF kk ∨ i = .addImm vF kk ∨ i = .rnd vF kk) ∨
    (∃ y, i = .ldReg vF y ∨ i = .orReg vF y ∨ i = .andReg vF y ∨ i = .xorReg vF y) ∨
    i = .ldVxDt vF ∨ i = .ldRegs vF := by
  cases i with
  | ldRegs x =>
    obtain hpc | ⟨r, hr, hreg⟩ := h
    · cases hpc
    · cases hreg
      have hx : x = vF := BitVec.eq_of_toNat_eq (le_antisymm (Nat.le_of_lt_succ x.isLt) hr)
      simp [hx]
  | _ => simp_all [writes]

/-- Two call stacks that differ, differ in a slot. -/
theorem exists_slot_ne {a b : Vector Word 16} (h : a ≠ b) : ∃ j : Fin 16, a[j] ≠ b[j] := by
  by_contra hno
  simp only [not_exists, not_not] at hno
  exact h (Vector.ext fun j hj => hno ⟨j, hj⟩)

/-- Two bitmaps that differ, differ in a pixel. -/
theorem exists_pixel_ne {a b : Bitmap} (h : a ≠ b) : ∃ q, a.pixelAt q ≠ b.pixelAt q := by
  by_contra hno
  simp only [not_exists, not_not] at hno
  exact h (Bitmap.ext_pixels a b fun q _ => hno q)

end Writers

/-- Settles O48: each part changes only where `writes` lists it, and memory only under the two stores. -/
theorem stateHasOnlyItsNamedWriters : Obligations.StateHasOnlyItsNamedWriters := by
  intro i s t h
  refine ⟨fun hi => writes_i_iff.mp (writes_of_not_same h nofun nofun hi),
    fun hsp => writes_sp_iff.mp (writes_of_not_same h nofun nofun hsp), fun hstack => ?_,
    fun hdt => writes_dt_iff.mp (writes_of_not_same h nofun nofun hdt),
    fun hst => writes_st_iff.mp (writes_of_not_same h nofun nofun hst), fun hfb => ?_, fun hmem => ?_, ?_,
    exec_surroundings h⟩
  · obtain ⟨j, hj⟩ := exists_slot_ne hstack
    exact call_of_writes_slot (writes_of_not_same h nofun nofun (p := .slot j) hj)
  · obtain ⟨q, hq⟩ := exists_pixel_ne hfb
    exact cls_or_drw_of_writes_pixel (writes_of_not_same h nofun nofun (p := .pixel q) hq)
  · obtain hsame | ⟨x, hi, _⟩ | ⟨x, hi, _⟩ := exec_mem h
    · exact absurd hsame hmem
    · exact ⟨x, .inl hi⟩
    · exact ⟨x, .inr hi⟩
  · rintro (hwait | hdest)
    · exact writes_wait_iff.mp (writes_of_not_same h nofun nofun hwait)
    · exact writes_waitDest_iff.mp (writes_of_not_same h nofun nofun hdest)

/-- Settles O49: the instructions whose rule lists register 15. -/
theorem flagRegisterWriters : Obligations.FlagRegisterWriters := by
  intro i s t h hne
  exact flag_writers_of_writes_vF (writes_of_not_same (p := .reg vF) h nofun nofun hne)

/-! ### What no instruction but the named ones reads -/

/-- A change to the four parts that few instructions read: `ST`, the random input, the key sample and the bitmap. -/
structure Overlay where
  st : Byte → Byte
  rndIn : Byte → Byte
  keys : Keys → Keys
  fb : Bitmap → Bitmap

/-- The state with the change made. -/
def Overlay.apply (o : Overlay) (s : State) : State :=
  { s with st := o.st s.st, rndIn := o.rndIn s.rndIn, keys := o.keys s.keys, fb := o.fb s.fb }

/-- The change touches nothing that the instruction reads or writes. -/
def Overlay.Outside (o : Overlay) : Instr → Prop
  | .ldStVx _ => o.st = id
  | .rnd _ _ => o.rndIn = id
  | .skp _ | .sknp _ => o.keys = id
  | .cls | .drw _ _ _ => o.fb = id
  | _ => True

/-- A checked operation commutes with the change when its two outcomes do. -/
theorem mapNext_elim {α : Type} {g : State → State} {p : Option α} {r r' : Out} {f f' : α → Out}
    (hr : r' = mapNext g r) (hf : ∀ a, f' a = mapNext g (f a)) : p.elim r' f' = mapNext g (p.elim r f) := by
  cases p with
  | none => exact hr
  | some a => exact hf a

/-- Loading registers commutes with the change: it reads and writes registers alone. -/
theorem Overlay.setRegsFrom_apply (o : Overlay) (bs : List Byte) : ∀ (s : State) (x : Nat),
    (o.apply s).setRegsFrom x bs = o.apply (s.setRegsFrom x bs) := by
  intro s x
  rw [State.setRegsFrom_rest bs s, State.setRegsFrom_rest bs (o.apply s),
    State.setRegsFrom_v_congr bs (o.apply s) s x rfl]
  rfl

/-- An instruction does the same to a state changed outside what it reads, and carries the change along. -/
theorem Overlay.exec_apply (o : Overlay) (i : Instr) (s : State) (h : o.Outside i) :
    exec i (o.apply s) = mapNext o.apply (exec i s) := by
  obtain ⟨fst, frnd, fkeys, ffb⟩ := o
  cases i with
  | ldStVx | rnd | cls => cases h; rfl
  | ret =>
    by_cases hsp : s.sp = 0#8
    · simp [exec, execRet, Overlay.apply, hsp, raise, mapNext]
    · cases ha : s.stack[s.sp.toNat - 1]? <;> simp [exec, execRet, Overlay.apply, hsp, ha, mapNext]
  | call =>
    by_cases hsp : s.sp.toNat < 15 <;> simp [exec, execCall, Overlay.apply, hsp, raise, mapNext]
  | drw =>
    cases h
    rw [exec_drw, exec_drw]
    exact mapNext_elim rfl fun _ => rfl
  | skp =>
    cases h
    rw [exec_skp, exec_skp]
    exact mapNext_elim rfl fun _ => rfl
  | sknp =>
    cases h
    rw [exec_sknp, exec_sknp]
    exact mapNext_elim rfl fun _ => rfl
  | ldB =>
    rw [exec_ldB, exec_ldB]
    exact mapNext_elim rfl fun _ => rfl
  | stRegs =>
    rw [exec_stRegs, exec_stRegs]
    exact mapNext_elim rfl fun _ => rfl
  | ldRegs =>
    rw [exec_ldRegs, exec_ldRegs]
    exact mapNext_elim rfl fun bs => congrArg fallThrough (Overlay.setRegsFrom_apply _ bs s 0)
  | _ => rfl

/-- Settles O57: a change of `ST` alone is outside every instruction but LD ST,Vx. -/
theorem nothingReadsSoundTimer : Obligations.NothingReadsSoundTimer := by
  intro i s b hi
  refine Overlay.exec_apply ⟨fun _ => b, id, id, id⟩ i s ?_
  cases i with
  | ldStVx x => exact absurd rfl (hi x)
  | rnd | skp | sknp | cls | drw => rfl
  | _ => trivial

/-- Settles O58: a change of the random input alone is outside every instruction but RND. -/
theorem onlyRandomReadsRandomInput : Obligations.OnlyRandomReadsRandomInput := by
  intro i s b hi
  refine Overlay.exec_apply ⟨id, fun _ => b, id, id⟩ i s ?_
  cases i with
  | rnd x kk => exact absurd rfl (hi x kk)
  | ldStVx | skp | sknp | cls | drw => rfl
  | _ => trivial

/-- Settles O59: a change of the key sample alone is outside every instruction but SKP and SKNP. -/
theorem onlyKeySkipsReadKeys : Obligations.OnlyKeySkipsReadKeys := by
  intro i s k hi
  refine Overlay.exec_apply ⟨id, id, fun _ => k, id⟩ i s ?_
  cases i with
  | skp x => exact absurd rfl (hi x).1
  | sknp x => exact absurd rfl (hi x).2
  | ldStVx | rnd | cls | drw => rfl
  | _ => trivial

/-- Settles O60: a change of the bitmap alone is outside every instruction but DRW and CLS. -/
theorem onlyDrawReadsBitmap : Obligations.OnlyDrawReadsBitmap := by
  intro i s b hdrw hcls
  refine Overlay.exec_apply ⟨id, id, id, fun _ => b⟩ i s ?_
  cases i with
  | drw x y n => exact absurd rfl (hdrw x y n)
  | cls => exact absurd rfl hcls
  | ldStVx | rnd | skp | sknp => rfl
  | _ => trivial

/-! ### Key sampling, canonical memory, the reset state -/

section Sampling

variable {s t : State}

/-- A poll leaves the sample it was taken after (R70). -/
theorem State.poll_keys (old : Keys) (s : State) : (s.poll old).keys = s.keys := by
  obtain ⟨_, hpoll⟩ | ⟨_, _, _, _, _, hpoll⟩ := State.poll_cases old s
  · rw [hpoll]
  · rw [hpoll]
    rfl

/-- A Step of a machine that is not Halted leaves its key inputs in `K` (R62). -/
theorem coreStep_keys {k : Keys} {r : Byte} (hfault : s.fault = .none) (h : coreStep k r s = .next t) : t.keys = k := by
  obtain ⟨hne, _⟩ | ⟨_, _, heq⟩ | ⟨_, _, w, _, heq⟩ | ⟨_, _, _, heq⟩ := coreStep_cases k r s
  · exact absurd hfault hne
  · cases heq.symm.trans h
    exact State.poll_keys _ _
  · obtain ⟨hkeys, _⟩ := exec_surroundings (heq.symm.trans h)
    exact hkeys
  · cases heq.symm.trans h
    rfl

theorem coreStep_of_halted {k : Keys} {r : Byte} (hs : s.Halted) : coreStep k r s = .next s :=
  if_pos (by simpa [State.halted] using hs)

end Sampling

theorem step_of_event {s : State} {e : Event} {es : List Event} (h : s.events = e :: es) :
    step s = perform e { s with events := es, redraw := false } := by
  simp only [step, nextEvent, h]

/-- Settles O8: a Step samples unless the machine is Halted, when it changes nothing; a TimerTick only counts. -/
theorem stepSamplesKeys : Obligations.StepSamplesKeys := by
  intro s t h
  refine ⟨fun k r es hes hfault => ?_, fun k r es hes hfault => ?_, fun es hes => ?_⟩ <;>
    rw [step_of_event hes] at h
  · exact coreStep_keys (s := { s with events := es, redraw := false }) hfault h
  · cases (coreStep_of_halted (s := { s with events := es, redraw := false }) hfault).symm.trans h
    rfl
  · cases h
    rw [State.timerTick_rest]

/-- At its first address a canonical list does not read as the reset contents. -/
theorem Mem.peek_head_ne {k : Nat} {v : Byte} {m : Mem} (h : Mem.wf ((k, v) :: m)) :
    Mem.peek ((k, v) :: m) k ≠ Mem.initial k := by
  obtain ⟨_, _, hv, _⟩ := Mem.wf_cons.mp h
  simpa [Mem.peek] using hv

/-- The first addresses of two canonical lists with the same contents are in order: a lower one would read otherwise
in the other list. -/
theorem Mem.head_le_head {k k' : Nat} {v v' : Byte} {m m' : Mem} (h : Mem.wf ((k, v) :: m))
    (hpeek : ∀ a, Mem.peek ((k, v) :: m) a = Mem.peek ((k', v') :: m') a) : k' ≤ k := by
  by_contra hlt
  refine Mem.peek_head_ne h ((hpeek k).trans ?_)
  simp [Mem.peek, show k < k' by omega]

/-- The rest of a canonical list reads as the list does above the first address, as the reset contents elsewhere. -/
theorem Mem.peek_tail {k : Nat} {v : Byte} {m : Mem} (h : Mem.wf ((k, v) :: m)) (a : Nat) :
    m.peek a = if k < a then Mem.peek ((k, v) :: m) a else Mem.initial a := by
  obtain ⟨hgt, _⟩ := Mem.wf_cons.mp h
  split
  · next ha => simp only [Mem.peek, if_neg (by omega : ¬ a < k), if_neg (by omega : ¬ a = k)]
  · next ha => exact Mem.peek_of_lt m a fun c hc => by have := hgt c hc; omega

/-- Settles O39, by induction on the two lists: their first entries agree, and so do their rests. -/
theorem canonicalMemoryIsExtensional : Obligations.CanonicalMemoryIsExtensional := by
  intro m
  induction m with
  | nil =>
    intro n _ hn hpeek
    cases n with
    | nil => rfl
    | cons c n => exact absurd (hpeek c.1).symm (Mem.peek_head_ne hn)
  | cons c m ih =>
    intro n hm hn hpeek
    cases n with
    | nil => exact absurd (hpeek c.1) (Mem.peek_head_ne hm)
    | cons d n =>
      obtain ⟨k, v⟩ := c
      obtain ⟨k', v'⟩ := d
      obtain rfl : k = k' := le_antisymm (Mem.head_le_head hn fun a => (hpeek a).symm) (Mem.head_le_head hm hpeek)
      obtain rfl : v = v' := by simpa [Mem.peek] using hpeek k
      obtain ⟨_, _, _, hm'⟩ := Mem.wf_cons.mp hm
      obtain ⟨_, _, _, hn'⟩ := Mem.wf_cons.mp hn
      rw [ih n hm' hn' fun a => by rw [Mem.peek_tail hm, Mem.peek_tail hn, hpeek a]]

/-- Settles O16, field by field; memory is the font below 80 and zero above it. -/
theorem resetStateValues : Obligations.ResetStateValues := by
  refine ⟨fun r => ?_, rfl, rfl, rfl, fun j => ?_, rfl, rfl, fun a => ?_, Bitmap.pixelAt_blank, rfl, rfl, rfl, rfl⟩
  · exact Vector.getElem_replicate _
  · exact Vector.getElem_replicate _
  · show Mem.initial a = _
    split
    · rfl
    · exact Mem.initial_of_ge a (by omega)

end Sys2Proof.Machine

namespace Sys2Proof.Machine

/-! ### What a store leaves for the next fetch -/

/-- In a block of registers stored from `a` upward, the byte at `a + r` is `V[r]` (R115, R116). -/
theorem Mem.peek_pokes_regsBelow {m : Mem} {s : State} {a n : Nat} {r : RegIx} (hm : m.wf) (ha : a + n ≤ 4096)
    (hr : r.toNat < n) : (m.pokes a (s.regsBelow n)).peek (a + r.toNat) = s.reg r := by
  rw [Mem.peek_pokes hm (by rwa [State.regsBelow_length]), State.regsBelow_length, if_pos (by omega),
    Nat.add_sub_cancel_left, State.regsBelow_getD s n r.toNat hr, BitVec.ofNat_toNat, BitVec.setWidth_eq]

/-- LD [I],Vx that latches no fault has stored each of its registers, and the block lies in memory (R116). -/
theorem exec_stRegs_peek {x : RegIx} {s t : State} (hm : s.mem.wf) (h : exec (.stRegs x) s = .next t)
    (hfault : t.fault = .none) :
    s.i.toNat + x.toNat < 4096 ∧ ∀ r : RegIx, r.toNat ≤ x.toNat → t.mem.peek (s.i.toNat + r.toNat) = s.reg r := by
  obtain ⟨_, hstore, rfl⟩ | ⟨_, rfl⟩ := exec_stRegs_cases h
  · obtain ⟨hlen, rfl⟩ := Mem.writeBlock_eq_some.mp hstore
    rw [State.regsBelow_length] at hlen
    exact ⟨hlen, fun r hr => Mem.peek_pokes_regsBelow hm hlen (Nat.lt_succ_of_le hr)⟩
  · cases hfault

/-- Settles O38: the fetch reads the memory that the store left, byte for byte. -/
theorem fetchSeesStores : Obligations.FetchSeesStores := by
  intro x r q s t u hm h hfault hq hqx hmem hpc
  obtain ⟨hrange, hpeek⟩ := exec_stRegs_peek hm h hfault
  have hsecond : u.pc.toNat + 1 = s.i.toNat + q.toNat := by omega
  refine State.fetch_eq_some.mpr ⟨by omega, ?_⟩
  rw [hmem, hsecond, hpc, hpeek r (by omega), hpeek q hqx]

end Sys2Proof.Machine

namespace Sys2Proof

/-! ### The decoder and the encoder are inverse to each other (R46 to R57) -/

section Words

variable {w : Word} {op : BitVec 4}

/-- A word with a known opcode digit is that digit and the other fields. -/
theorem wordNNN_of_op (h : fieldOp w = op) : wordNNN op (fieldNNN w) = w := h ▸ wordNNN_fields w

theorem wordXKK_of_op (h : fieldOp w = op) : wordXKK op (fieldX w) (fieldKK w) = w := h ▸ wordXKK_fields w

theorem wordXYN_of_op (h : fieldOp w = op) : wordXYN op (fieldX w) (fieldY w) (fieldN w) = w := h ▸ wordXYN_fields w

/-! Words of one layout are equal when their fields are. -/

theorem wordNNN_inj {op op' : BitVec 4} {nnn nnn' : Addr} :
    wordNNN op nnn = wordNNN op' nnn' ↔ op = op' ∧ nnn = nnn' :=
  ⟨fun h => ⟨by simpa using congrArg fieldOp h, by simpa using congrArg fieldNNN h⟩, by rintro ⟨rfl, rfl⟩; rfl⟩

theorem wordXYN_inj {op x y n op' x' y' n' : BitVec 4} :
    wordXYN op x y n = wordXYN op' x' y' n' ↔ op = op' ∧ x = x' ∧ y = y' ∧ n = n' :=
  ⟨fun h => ⟨by simpa using congrArg fieldOp h, by simpa using congrArg fieldX h, by simpa using congrArg fieldY h,
    by simpa using congrArg fieldN h⟩, by rintro ⟨rfl, rfl, rfl, rfl⟩; rfl⟩

theorem wordXKK_inj {op x op' x' : BitVec 4} {kk kk' : Byte} :
    wordXKK op x kk = wordXKK op' x' kk' ↔ op = op' ∧ x = x' ∧ kk = kk' :=
  ⟨fun h => ⟨by simpa using congrArg fieldOp h, by simpa using congrArg fieldX h, by simpa using congrArg fieldKK h⟩,
    by rintro ⟨rfl, rfl, rfl⟩; rfl⟩

/-! A no-op is well-formed exactly when it carries the bits of no operation (R55). -/

theorem wellFormed_nop0 {nnn : Addr} : (Instr.nop0 nnn).wellFormed = true ↔ nnn ∉ recognised0 := by
  simp [Instr.wellFormed]

theorem wellFormed_nop8 {x y n : BitVec 4} : (Instr.nop8 x y n).wellFormed = true ↔ n ∉ recognised8 := by
  simp [Instr.wellFormed]

theorem wellFormed_nopE {x : BitVec 4} {kk : Byte} : (Instr.nopE x kk).wellFormed = true ↔ kk ∉ recognisedE := by
  simp [Instr.wellFormed]

theorem wellFormed_nopF {x : BitVec 4} {kk : Byte} : (Instr.nopF x kk).wellFormed = true ↔ kk ∉ recognisedF := by
  simp [Instr.wellFormed]

/-! The bits of no operation decode to the no-op of their group (R50 to R53). -/

theorem ne_cls_ret_of_notMem (h : fieldNNN w ∉ recognised0) : w ≠ 0x00E0#16 ∧ w ≠ 0x00EE#16 :=
  ⟨by rintro rfl; exact h (by decide), by rintro rfl; exact h (by decide)⟩

theorem decodeGroup0_of_notMem (h : fieldNNN w ∉ recognised0) : decodeGroup0 w = .nop0 (fieldNNN w) := by
  obtain ⟨hcls, hret⟩ := ne_cls_ret_of_notMem h
  simp [decodeGroup0, hcls, hret]

theorem decodeGroup8_of_notMem (h : fieldN w ∉ recognised8) :
    decodeGroup8 w = .nop8 (fieldX w) (fieldY w) (fieldN w) := by
  unfold decodeGroup8
  split <;> simp_all [recognised8, BitVec.toNat_eq]

theorem decodeGroupE_of_notMem (h : fieldKK w ∉ recognisedE) : decodeGroupE w = .nopE (fieldX w) (fieldKK w) := by
  unfold decodeGroupE
  split <;> simp_all [recognisedE, BitVec.toNat_eq]

theorem decodeGroupF_of_notMem (h : fieldKK w ∉ recognisedF) : decodeGroupF w = .nopF (fieldX w) (fieldKK w) := by
  unfold decodeGroupF
  split <;> simp_all [recognisedF, BitVec.toNat_eq]

/-- Decoding gives a well-formed instruction back, form by form: a no-op carries the bits of no operation, and the
fields of every other word select its form. -/
theorem decode_encode {i : Instr} (hi : i.wellFormed = true) : decode (encode i) = i := by
  cases i with
  | cls | ret => rfl
  | nop0 nnn => simp [encode, decode, decodeGroup0_of_notMem, wellFormed_nop0.mp hi]
  | nop8 x y n => simp [encode, decode, decodeGroup8_of_notMem, wellFormed_nop8.mp hi]
  | nopE x kk => simp [encode, decode, decodeGroupE_of_notMem, wellFormed_nopE.mp hi]
  | nopF x kk => simp [encode, decode, decodeGroupF_of_notMem, wellFormed_nopF.mp hi]
  | _ => simp [encode, decode, decodeGroup8, decodeGroupE, decodeGroupF]

/-- `w` is the word of a well-formed instruction. -/
def IsInstrWord (w : Word) : Prop := ∃ i : Instr, i.wellFormed = true ∧ encode i = w

/-! In a group of several operations the remaining bits name one of them, or the word is the group's no-op. -/

theorem isInstrWord_of_group0 (hop : fieldOp w = 0#4) : IsInstrWord w := by
  have hw := wordNNN_of_op hop
  by_cases hnnn : fieldNNN w ∈ recognised0
  · simp only [recognised0, List.mem_cons, List.not_mem_nil, or_false] at hnnn
    obtain h | h := hnnn <;> rw [h] at hw
    · exact ⟨.cls, rfl, hw⟩
    · exact ⟨.ret, rfl, hw⟩
  · exact ⟨_, wellFormed_nop0.mpr hnnn, hw⟩

theorem isInstrWord_of_group8 (hop : fieldOp w = 8#4) : IsInstrWord w := by
  have hw := wordXYN_of_op hop
  by_cases hn : fieldN w ∈ recognised8
  · simp only [recognised8, List.mem_cons, List.not_mem_nil, or_false] at hn
    obtain h | h | h | h | h | h | h | h | h := hn <;> rw [h] at hw
    · exact ⟨.ldReg _ _, rfl, hw⟩
    · exact ⟨.orReg _ _, rfl, hw⟩
    · exact ⟨.andReg _ _, rfl, hw⟩
    · exact ⟨.xorReg _ _, rfl, hw⟩
    · exact ⟨.addReg _ _, rfl, hw⟩
    · exact ⟨.sub _ _, rfl, hw⟩
    · exact ⟨.shr _ _, rfl, hw⟩
    · exact ⟨.subn _ _, rfl, hw⟩
    · exact ⟨.shl _ _, rfl, hw⟩
  · exact ⟨_, wellFormed_nop8.mpr hn, hw⟩

theorem isInstrWord_of_groupE (hop : fieldOp w = 0xE#4) : IsInstrWord w := by
  have hw := wordXKK_of_op hop
  by_cases hkk : fieldKK w ∈ recognisedE
  · simp only [recognisedE, List.mem_cons, List.not_mem_nil, or_false] at hkk
    obtain h | h := hkk <;> rw [h] at hw
    · exact ⟨.skp _, rfl, hw⟩
    · exact ⟨.sknp _, rfl, hw⟩
  · exact ⟨_, wellFormed_nopE.mpr hkk, hw⟩

theorem isInstrWord_of_groupF (hop : fieldOp w = 0xF#4) : IsInstrWord w := by
  have hw := wordXKK_of_op hop
  by_cases hkk : fieldKK w ∈ recognisedF
  · simp only [recognisedF, List.mem_cons, List.not_mem_nil, or_false] at hkk
    obtain h | h | h | h | h | h | h | h | h := hkk <;> rw [h] at hw
    · exact ⟨.ldVxDt _, rfl, hw⟩
    · exact ⟨.ldVxK _, rfl, hw⟩
    · exact ⟨.ldDtVx _, rfl, hw⟩
    · exact ⟨.ldStVx _, rfl, hw⟩
    · exact ⟨.addI _, rfl, hw⟩
    · exact ⟨.ldF _, rfl, hw⟩
    · exact ⟨.ldB _, rfl, hw⟩
    · exact ⟨.stRegs _, rfl, hw⟩
    · exact ⟨.ldRegs _, rfl, hw⟩
  · exact ⟨_, wellFormed_nopF.mpr hkk, hw⟩

/-- Every word is the word of a well-formed instruction: the opcode digit gives the form, or the group to look in
(R49, R55). -/
theorem isInstrWord (w : Word) : IsInstrWord w := by
  obtain ⟨op, hop⟩ : ∃ op, fieldOp w = BitVec.ofFin op := ⟨_, rfl⟩
  have hNNN := wordNNN_of_op hop
  have hXKK := wordXKK_of_op hop
  have hXYN := wordXYN_of_op hop
  fin_cases op
  · exact isInstrWord_of_group0 hop
  · exact ⟨.jp _, rfl, hNNN⟩
  · exact ⟨.call _, rfl, hNNN⟩
  · exact ⟨.seImm _ _, rfl, hXKK⟩
  · exact ⟨.sneImm _ _, rfl, hXKK⟩
  · exact ⟨.seReg _ _ _, rfl, hXYN⟩
  · exact ⟨.ldImm _ _, rfl, hXKK⟩
  · exact ⟨.addImm _ _, rfl, hXKK⟩
  · exact isInstrWord_of_group8 hop
  · exact ⟨.sneReg _ _ _, rfl, hXYN⟩
  · exact ⟨.ldI _, rfl, hNNN⟩
  · exact ⟨.jpV0 _, rfl, hNNN⟩
  · exact ⟨.rnd _ _, rfl, hXKK⟩
  · exact ⟨.drw _ _ _, rfl, hXYN⟩
  · exact isInstrWord_of_groupE hop
  · exact isInstrWord_of_groupF hop

/-- The instruction a word decodes to is the only well-formed one of that word. -/
theorem decode_eq_iff {i : Instr} : decode w = i ↔ i.wellFormed = true ∧ encode i = w := by
  constructor
  · rintro rfl
    obtain ⟨i, hi, rfl⟩ := isInstrWord w
    rw [decode_encode hi]
    exact ⟨hi, rfl⟩
  · rintro ⟨hi, rfl⟩
    exact decode_encode hi

end Words

/-- Settles O1, by `decode_encode`. -/
theorem decodeInvertsEncode : Obligations.DecodeInvertsEncode := fun _ => decode_encode

/-- Settles O2: of its instructions a word decodes to the well-formed one. -/
theorem encodeInvertsDecode : Obligations.EncodeInvertsDecode := fun _ => decode_eq_iff.mp rfl

/-! ### The no-op words (R55) -/

section NoOps

variable {w : Word} {op : BitVec 4}

theorem fieldOp_toNat (w : Word) : (fieldOp w).toNat = w.toNat / 4096 := by
  simp only [fieldOp, BitVec.extractLsb'_toNat, Nat.shiftRight_eq_div_pow]
  omega

theorem fieldN_toNat (w : Word) : (fieldN w).toNat = w.toNat % 16 := by
  simp [fieldN]

theorem fieldKK_toNat (w : Word) : (fieldKK w).toNat = w.toNat % 256 := by
  simp [fieldKK]

theorem fieldOp_eq_iff : fieldOp w = op ↔ w.toNat / 4096 = op.toNat := by
  rw [BitVec.toNat_eq, fieldOp_toNat]

/-- In group 0 the bits of no operation are those of every word but CLS and RET (R50). -/
theorem notMem_recognised0_iff (hop : fieldOp w = 0#4) :
    fieldNNN w ∉ recognised0 ↔ w ≠ 0x00E0#16 ∧ w ≠ 0x00EE#16 := by
  refine ⟨ne_cls_ret_of_notMem, ?_⟩
  rintro ⟨hcls, hret⟩ h
  have hw := wordNNN_of_op hop
  simp only [recognised0, List.mem_cons, List.not_mem_nil, or_false] at h
  obtain h | h := h <;> rw [h] at hw
  · exact hcls hw.symm
  · exact hret hw.symm

/-- The low nibbles that R55 (b) lists are those R51 does not. -/
theorem notMem_recognised8_iff : ∀ n : BitVec 4,
    n ∉ recognised8 ↔ n.toNat ∈ [8, 9, 0xA, 0xB, 0xC, 0xD, 0xF] := by decide

/-! A word decodes to a no-op exactly where its opcode digit is the group's and its bits name no operation. -/

theorem decode_eq_nop0_iff : (∃ a, decode w = .nop0 a) ↔ fieldOp w = 0#4 ∧ fieldNNN w ∉ recognised0 := by
  simp only [decode_eq_iff, wellFormed_nop0]
  constructor
  · rintro ⟨a, ha, rfl⟩
    simpa [encode] using ha
  · rintro ⟨hop, h⟩
    exact ⟨_, h, wordNNN_of_op hop⟩

theorem decode_eq_nop8_iff : (∃ x y n, decode w = .nop8 x y n) ↔ fieldOp w = 8#4 ∧ fieldN w ∉ recognised8 := by
  simp only [decode_eq_iff, wellFormed_nop8]
  constructor
  · rintro ⟨x, y, n, hn, rfl⟩
    simpa [encode] using hn
  · rintro ⟨hop, h⟩
    exact ⟨_, _, _, h, wordXYN_of_op hop⟩

theorem decode_eq_nopE_iff : (∃ x kk, decode w = .nopE x kk) ↔ fieldOp w = 0xE#4 ∧ fieldKK w ∉ recognisedE := by
  simp only [decode_eq_iff, wellFormed_nopE]
  constructor
  · rintro ⟨x, kk, hkk, rfl⟩
    simpa [encode] using hkk
  · rintro ⟨hop, h⟩
    exact ⟨_, _, h, wordXKK_of_op hop⟩

theorem decode_eq_nopF_iff : (∃ x kk, decode w = .nopF x kk) ↔ fieldOp w = 0xF#4 ∧ fieldKK w ∉ recognisedF := by
  simp only [decode_eq_iff, wellFormed_nopF]
  constructor
  · rintro ⟨x, kk, hkk, rfl⟩
    simpa [encode] using hkk
  · rintro ⟨hop, h⟩
    exact ⟨_, _, h, wordXKK_of_op hop⟩

end NoOps

/-- Settles O4: by `decode_eq_iff` each class is one opcode digit with bits that name no operation. -/
theorem noOpWordsAreExactlyTheListed : Obligations.NoOpWordsAreExactlyTheListed := by
  intro w
  refine ⟨?_, ?_, ?_, ?_⟩
  · rw [decode_eq_nop0_iff, and_congr_right notMem_recognised0_iff, fieldOp_eq_iff]
    rfl
  · rw [decode_eq_nop8_iff, notMem_recognised8_iff, fieldN_toNat, fieldOp_eq_iff]
    rfl
  · rw [decode_eq_nopE_iff, fieldOp_eq_iff, ← fieldKK_toNat]
    simp [recognisedE, BitVec.toNat_eq]
  · rw [decode_eq_nopF_iff, fieldOp_eq_iff, ← fieldKK_toNat]
    simp [recognisedF, BitVec.toNat_eq]

/-! ### The opcode table, row family by row family (R57) -/

/-- The row of one word of group 0. -/
def OpcodeRow.ofNNN (nnn : Addr) : OpcodeRow := ⟨0xFFFF#16, wordNNN 0#4 nnn⟩

/-- The row of all words with one opcode digit. -/
def OpcodeRow.ofOp (op : BitVec 4) : OpcodeRow := ⟨0xF000#16, wordNNN op 0#12⟩

/-- The row of all words with one opcode digit and one low nibble. -/
def OpcodeRow.ofOpN (op n : BitVec 4) : OpcodeRow := ⟨0xF00F#16, wordXYN op 0#4 0#4 n⟩

/-- The row of all words with one opcode digit and one low byte. -/
def OpcodeRow.ofOpKK (op : BitVec 4) (kk : Byte) : OpcodeRow := ⟨0xF0FF#16, wordXKK op 0#4 kk⟩

/-- The table in priority order: the words of group 0, then the operations by opcode digit and sub-opcode, and last the
no-op of each of the four groups. -/
theorem opcodeTable_eq_families :
    opcodeTable = recognised0.map .ofNNN ++ [1#4, 2#4, 3#4, 4#4, 5#4, 6#4, 7#4].map .ofOp ++
      recognised8.map (.ofOpN 8#4) ++ [9#4, 0xA#4, 0xB#4, 0xC#4, 0xD#4].map .ofOp ++
      recognisedE.map (.ofOpKK 0xE#4) ++ recognisedF.map (.ofOpKK 0xF#4) ++
      [0#4, 8#4, 0xE#4, 0xF#4].map .ofOp := by decide

section Rows

variable {w : Word} {op : BitVec 4}

/-! A word fits a row of a family by its fields. -/

theorem OpcodeRow.fits_ofNNN (nnn : Addr) (w : Word) :
    (OpcodeRow.ofNNN nnn).fits w = (fieldOp w == 0#4 && fieldNNN w == nnn) := by
  have hmask : w &&& 0xFFFF#16 = wordNNN (fieldOp w) (fieldNNN w) := BitVec.and_allOnes.trans (wordNNN_fields w).symm
  rw [Bool.eq_iff_iff]
  simp [OpcodeRow.fits, OpcodeRow.ofNNN, hmask, wordNNN_inj]

theorem OpcodeRow.fits_ofOp (op : BitVec 4) (w : Word) : (OpcodeRow.ofOp op).fits w = (fieldOp w == op) := by
  have hmask := wordNNN_mask (fieldOp w) (fieldNNN w)
  rw [wordNNN_fields] at hmask
  rw [Bool.eq_iff_iff]
  simp [OpcodeRow.fits, OpcodeRow.ofOp, hmask, wordNNN_inj]

theorem OpcodeRow.fits_ofOpN (op n : BitVec 4) (w : Word) :
    (OpcodeRow.ofOpN op n).fits w = (fieldOp w == op && fieldN w == n) := by
  have hmask := wordXYN_maskN (fieldOp w) (fieldX w) (fieldY w) (fieldN w)
  rw [wordXYN_fields] at hmask
  rw [Bool.eq_iff_iff]
  simp [OpcodeRow.fits, OpcodeRow.ofOpN, hmask, wordXYN_inj]

theorem OpcodeRow.fits_ofOpKK (op : BitVec 4) (kk : Byte) (w : Word) :
    (OpcodeRow.ofOpKK op kk).fits w = (fieldOp w == op && fieldKK w == kk) := by
  have hmask := wordXKK_maskKK (fieldOp w) (fieldX w) (fieldKK w)
  rw [wordXKK_fields] at hmask
  rw [Bool.eq_iff_iff]
  simp [OpcodeRow.fits, OpcodeRow.ofOpKK, hmask, wordXKK_inj]

/-- The first fitting row of the family of one opcode digit: where the word's bits stand in the family's list. -/
theorem findIdx?_family {α : Type} [BEq α] [LawfulBEq α] {row : α → OpcodeRow} {bits : α} (as : List α)
    (hfits : ∀ a, (row a).fits w = (fieldOp w == op && bits == a)) :
    (as.map row).findIdx? (fun r => r.fits w) = if fieldOp w = op then as.idxOf? bits else none := by
  simp only [List.findIdx?_map, Function.comp_def, hfits, List.idxOf?]
  split
  · next h => simp [h, BEq.comm]
  · next h => simp [h]

theorem findIdx?_ofOp (ops : List (BitVec 4)) (w : Word) :
    (ops.map OpcodeRow.ofOp).findIdx? (fun r => r.fits w) = ops.idxOf? (fieldOp w) := by
  simp [List.findIdx?_map, Function.comp_def, OpcodeRow.fits_ofOp, List.idxOf?, BEq.comm]

/-- The first row that the word of a well-formed instruction fits is the instruction's own: in the families before it
the word has another opcode digit, or, for a no-op, bits that are not listed. -/
theorem findIdx?_encode {i : Instr} (h : i.wellFormed = true) :
    opcodeTable.findIdx? (fun r => r.fits (encode i)) = some i.row := by
  rw [opcodeTable_eq_families]
  simp only [List.findIdx?_append, findIdx?_family _ (OpcodeRow.fits_ofNNN · _), findIdx?_ofOp,
    findIdx?_family _ (OpcodeRow.fits_ofOpN 8#4 · _), findIdx?_family _ (OpcodeRow.fits_ofOpKK 0xE#4 · _),
    findIdx?_family _ (OpcodeRow.fits_ofOpKK 0xF#4 · _)]
  cases i with
  | nop0 nnn =>
    simp only [encode, fieldOp_wordNNN, fieldNNN_wordNNN, List.idxOf?_eq_none_iff.mpr (wellFormed_nop0.mp h)]
    rfl
  | nop8 x y n =>
    simp only [encode, fieldOp_wordXYN, fieldN_wordXYN, List.idxOf?_eq_none_iff.mpr (wellFormed_nop8.mp h)]
    rfl
  | nopE x kk =>
    simp only [encode, fieldOp_wordXKK, fieldKK_wordXKK, List.idxOf?_eq_none_iff.mpr (wellFormed_nopE.mp h)]
    rfl
  | nopF x kk =>
    simp only [encode, fieldOp_wordXKK, fieldKK_wordXKK, List.idxOf?_eq_none_iff.mpr (wellFormed_nopF.mp h)]
    rfl
  | _ =>
    simp only [encode, fieldOp_wordXKK, fieldKK_wordXKK, fieldOp_wordXYN, fieldN_wordXYN, fieldOp_wordNNN]
    rfl

end Rows

/-- Settles O3: a word is that of the instruction it decodes to, whose row is the first it fits. -/
theorem decoderFollowsOpcodeTable : Obligations.DecoderFollowsOpcodeTable := by
  intro w
  obtain ⟨hwf, hw⟩ := encodeInvertsDecode w
  have hrow := findIdx?_encode hwf
  rwa [hw] at hrow

/-- Settles O5: fifteen closed words. -/
theorem listedWordsDecode : Obligations.ListedWordsDecode := by
  unfold Obligations.ListedWordsDecode
  decide

end Sys2Proof

namespace Sys2Proof.Machine

/-! ### Every step answers -/

section Answers

variable {s : State}

/-- A checked operation answers, by the fault if not by what is done after the check. -/
theorem checked_answers {α : Type} {o : Option α} {f : α → Out} {c : FaultCode} (hf : ∀ a, ∃ t, f a = .next t) :
    ∃ t, o.elim (raise c s) f = .next t := by
  cases o with
  | none => exact ⟨_, rfl⟩
  | some a => exact hf a

/-- With `sp ≤ 15` every instruction answers a next state; only RET asks that a slot exists (R14, R15). -/
theorem exec_answers (i : Instr) (hsp : s.sp.toNat ≤ 15) : ∃ t, exec i s = .next t := by
  cases i with
  | ret =>
    simp only [exec, execRet]
    split
    · exact ⟨_, rfl⟩
    · rw [Vector.getElem?_eq_getElem (by omega)]
      exact ⟨_, rfl⟩
  | call =>
    simp only [exec, execCall]
    split <;> exact ⟨_, rfl⟩
  | drw => rw [exec_drw]; exact checked_answers fun _ => ⟨_, rfl⟩
  | skp => rw [exec_skp]; exact checked_answers fun _ => ⟨_, rfl⟩
  | sknp => rw [exec_sknp]; exact checked_answers fun _ => ⟨_, rfl⟩
  | ldB => rw [exec_ldB]; exact checked_answers fun _ => ⟨_, rfl⟩
  | stRegs => rw [exec_stRegs]; exact checked_answers fun _ => ⟨_, rfl⟩
  | ldRegs => rw [exec_ldRegs]; exact checked_answers fun _ => ⟨_, rfl⟩
  | _ => exact ⟨_, rfl⟩

/-- A Step answers a next state: Halted, AwaitingKey, running an instruction or faulting at the fetch (R61). -/
theorem coreStep_answers (k : Keys) (r : Byte) (hsp : s.sp.toNat ≤ 15) : ∃ t, coreStep k r s = .next t := by
  obtain ⟨_, heq⟩ | ⟨_, _, heq⟩ | ⟨_, _, w, _, heq⟩ | ⟨_, _, _, heq⟩ := coreStep_cases k r s
  · exact ⟨_, heq⟩
  · exact ⟨_, heq⟩
  · exact heq ▸ exec_answers (decode w) hsp
  · exact ⟨_, heq⟩

/-- Reset answers for an image that the host may deliver (R161). -/
theorem doReset_answers {rom : List Byte} (hrom : (Event.reset rom).admissible = true) :
    ∃ t, doReset rom s = .next t :=
  ⟨_, if_pos (of_decide_eq_true hrom)⟩

end Answers

/-- Settles O55, event by event; of the invariant it needs `sp ≤ 15` alone. -/
theorem stepAlwaysAnswers : Obligations.StepAlwaysAnswers := by
  intro s hs hevents
  obtain ⟨_, hsp, _⟩ := hs
  obtain ⟨rom, es, hes, heq⟩ | ⟨k, r, es, _, heq⟩ | ⟨es, _, heq⟩ | ⟨_, heq⟩ := nextEvent_cases s
  · rw [step, heq]
    exact doReset_answers (hevents _ es hes)
  · rw [step, heq]
    exact coreStep_answers k r hsp
  · exact ⟨_, heq⟩
  · rw [step, heq, State.ticks_rest]
    exact coreStep_answers _ _ hsp

end Sys2Proof.Machine

namespace Sys2Proof.Machine

/-! ### A Step by the condition of the machine (R61), and the frames of the cycle's own updates -/

section Cycle

variable {A : Part → Prop} {s t u : State} {k : Keys} {r : Byte}

/-- The state on which an event begins: the schedule moved on, `redraw` lowered (R67). -/
def State.quiet (s : State) (es : List Event) : State := { s with events := es, redraw := false }

theorem step_scheduled {e : Event} {es : List Event} (h : s.events = e :: es) : step s = perform e (s.quiet es) :=
  step_of_event h

theorem ChangesOnly.quiet {es : List Event} (h : ChangesOnly A s u) (hevents : A .events) (hredraw : A .redraw) :
    ChangesOnly A s (u.quiet es) := by
  intro p hp
  cases p with
  | events => exact absurd hevents hp
  | redraw => exact absurd hredraw hp
  | _ => exact h _ hp

theorem ChangesOnly.sample (h : ChangesOnly A s u) (hkeys : A .keys) (hrnd : A .rndIn) :
    ChangesOnly A s (u.sample k r) := by
  intro p hp
  cases p with
  | keys => exact absurd hkeys hp
  | rndIn => exact absurd hrnd hp
  | _ => exact h _ hp

theorem ChangesOnly.setFault {c : FaultCode} (h : ChangesOnly A s u) (hfault : A .fault) :
    ChangesOnly A s { u with fault := c } := by
  intro p hp
  cases p with
  | fault => exact absurd hfault hp
  | _ => exact h _ hp

theorem ChangesOnly.endWait (h : ChangesOnly A s u) (hwait : A .wait) : ChangesOnly A s { u with wait := false } := by
  intro p hp
  cases p with
  | wait => exact absurd hwait hp
  | _ => exact h _ hp

theorem ChangesOnly.setTimers {a b : Byte} (h : ChangesOnly A s u) (hdt : A .dt) (hst : A .st) :
    ChangesOnly A s { u with dt := a, st := b } :=
  (h.setDt (b := a) hdt).setSt (b := b) hst

theorem coreStep_of_running (hs : s.Running) : coreStep k r s = runInstr (s.sample k r) := by
  obtain ⟨hfault, hwait⟩ := hs
  simp [coreStep, State.halted, hfault, hwait]

theorem coreStep_of_fetch {w : Word} (hs : s.Running) (hw : s.fetch = some w) :
    coreStep k r s = exec (decode w) (s.sample k r) := by
  have hsample : (s.sample k r).fetch = some w := hw
  rw [coreStep_of_running hs, runInstr, hsample]

theorem coreStep_of_fetch_none (hs : s.Running) (hw : s.fetch = none) :
    coreStep k r s = .next { s.sample k r with fault := .outOfRange } := by
  have hsample : (s.sample k r).fetch = none := hw
  rw [coreStep_of_running hs, runInstr, hsample, raise]

theorem coreStep_of_awaitingKey (hs : s.AwaitingKey) : coreStep k r s = .next ((s.sample k r).poll s.keys) := by
  obtain ⟨hfault, hwait⟩ := hs
  simp [coreStep, State.halted, hfault, hwait]

theorem step_of_no_event (h : s.events = []) :
    step s = coreStep (Config.keyIn s.clock) (Config.rndIn s.clock)
      (({ s with clock := s.clock + 1, redraw := false } : State).ticks (Config.ticksBefore s.clock)) := by
  simp only [step, nextEvent, h]

theorem step_eq_coreStep {es : List Event} (h : s.events = .step k r :: es) : step s = coreStep k r (s.quiet es) :=
  step_scheduled h

theorem State.ticks_fetch (n : Nat) (s : State) : (s.ticks n).fetch = s.fetch := by
  rw [State.ticks_rest]; rfl

theorem State.Running.ticks (hs : s.Running) (n : Nat) : (s.ticks n).Running := by
  rw [State.ticks_rest]; exact hs

end Cycle

/-- Settles O6: a Running machine goes from the sample to the decoded word, and free TimerTicks before the Step touch
neither its condition nor the word it fetches. -/
theorem stepRunsDecodedInstruction : Obligations.StepRunsDecodedInstruction := by
  intro s w hs hw
  refine ⟨fun k r es hes => ?_, fun hes => ?_⟩
  · rw [step_eq_coreStep hes]
    exact coreStep_of_fetch (s := s.quiet es) hs hw
  · rw [step_of_no_event hes]
    have hquiet : State.Running { s with clock := s.clock + 1, redraw := false } := hs
    exact coreStep_of_fetch (hquiet.ticks _) ((State.ticks_fetch ..).trans hw)

/-- Settles O7: below 4095 both bytes lie in memory; from there on the fetch answers none and the Step faults. -/
theorem fetchReadsTwoBytesOrFaults : Obligations.FetchReadsTwoBytesOrFaults := by
  refine fun s => ⟨fun hpc => State.fetch_eq_some.mpr ⟨by omega, rfl⟩, fun hpc hs k r es hes => ?_⟩
  have hcore := coreStep_of_fetch_none (s := s.quiet es) (k := k) (r := r) hs (State.fetch_eq_none.mpr hpc)
  refine ⟨_, (step_eq_coreStep hes).trans hcore, rfl, rfl, rfl, ?_⟩
  exact (((ChangesOnly.refl _ s).quiet (by simp) (by simp)).sample (by simp) (by simp)).setFault (by simp)

/-- Settles O9: a Step of a Halted machine leaves the state it began on, which is `s` with its schedule moved on. -/
theorem haltedStepChangesNothing : Obligations.HaltedStepChangesNothing := by
  intro s k r es hes hs
  have hcore := coreStep_of_halted (s := s.quiet es) (k := k) (r := r) hs
  exact ⟨_, (step_eq_coreStep hes).trans hcore, rfl, rfl, (ChangesOnly.refl _ s).quiet (by simp) (by simp)⟩

/-! ### The key wait (R68, R70) -/

section KeyWait

variable {s : State} {old : Keys}

theorem State.poll_of_no_rising (h : ∀ j, s.keys.getLsbD j = true → old.getLsbD j = true) : s.poll old = s := by
  obtain ⟨_, hpoll⟩ | ⟨_, ⟨m, hnew, hold⟩, _⟩ := State.poll_cases old s
  · exact hpoll
  · exact absurd (h m hnew) (by simp [hold])

theorem State.poll_of_rising (h : ∃ j, s.keys.getLsbD j = true ∧ old.getLsbD j = false) :
    ∃ j, j < 16 ∧ s.keys.getLsbD j = true ∧ (∀ l, l < j → s.keys.getLsbD l = false) ∧
      s.poll old = { (s.setReg s.waitDest (BitVec.ofNat 8 j)).advance 2#16 with wait := false } := by
  obtain ⟨hnone, _⟩ | ⟨j, _, hj⟩ := State.poll_cases old s
  · obtain ⟨m, hnew, hold⟩ := h
    exact absurd (hnone m hnew) (by simp [hold])
  · exact ⟨j, hj⟩

theorem coreStep_of_no_rising {k : Keys} {r : Byte} (hs : s.AwaitingKey)
    (h : ∀ j, k.getLsbD j = true → s.keys.getLsbD j = true) : coreStep k r s = .next (s.sample k r) := by
  rw [coreStep_of_awaitingKey hs, State.poll_of_no_rising h]

/-- Whether or not it ends the wait, a poll leaves the timers, `redraw` and the schedule. -/
theorem State.poll_unchanged (old : Keys) (s : State) :
    (s.poll old).dt = s.dt ∧ (s.poll old).st = s.st ∧ (s.poll old).redraw = s.redraw ∧
      (s.poll old).events = s.events := by
  obtain ⟨_, hpoll⟩ | ⟨_, _, _, _, _, hpoll⟩ := State.poll_cases old s <;> rw [hpoll]
  · exact ⟨rfl, rfl, rfl, rfl⟩
  · exact ⟨rfl, rfl, rfl, rfl⟩

end KeyWait

/-- Settles O11: the two outcomes of the poll, taken on the state whose sample is the new one. -/
theorem awaitingKeyPoll : Obligations.AwaitingKeyPoll := by
  intro s k r es hes hs
  have hcore : coreStep k r (s.quiet es) = .next (((s.quiet es).sample k r).poll s.keys) := coreStep_of_awaitingKey hs
  obtain ⟨_, _, hredraw, hevents⟩ := State.poll_unchanged s.keys ((s.quiet es).sample k r)
  refine ⟨_, (step_eq_coreStep hes).trans hcore, State.poll_keys _ _, hredraw, hevents, fun hno => ?_,
    fun hrise => ?_⟩
  · rw [State.poll_of_no_rising hno]
    exact ((ChangesOnly.refl _ s).quiet (by simp) (by simp)).sample (by simp) (by simp)
  · obtain ⟨j, hj, hdown, hleast, hpoll⟩ := State.poll_of_rising (s := (s.quiet es).sample k r) hrise
    have hreg : (((s.quiet es).sample k r).poll s.keys).reg s.waitDest = BitVec.ofNat 8 j := by
      rw [hpoll]
      exact State.setReg_reg_same ..
    have hindex : (BitVec.ofNat 8 j).toNat = j := Nat.mod_eq_of_lt (by omega)
    rw [hreg, hindex, hpoll]
    refine ⟨rfl, rfl, hdown, hj, hleast, ?_⟩
    exact (((((ChangesOnly.refl _ s).quiet (by simp) (by simp)).sample (by simp) (by simp)).setReg (.inl rfl)).advance
      (by simp)).endWait (by simp)

/-- Settles O45: the first Step arms the latch and keeps its sample in `K`; to the second no key rises. -/
theorem heldKeyDoesNotResolveWait : Obligations.HeldKeyDoesNotResolveWait := by
  intro x s t u w k j r q es hs hw hdecode hes hst htu hheld
  have hfirst : coreStep k r (s.quiet (.step j q :: es)) = exec (.ldVxK x) ((s.quiet (.step j q :: es)).sample k r) :=
    hdecode ▸ coreStep_of_fetch (s := s.quiet _) hs hw
  have hexec := hfirst.symm.trans ((step_eq_coreStep hes).symm.trans hst)
  have ⟨ht, hpc, hkeys, hevents⟩ : t.AwaitingKey ∧ t.pc = s.pc ∧ t.keys = k ∧ t.events = .step j q :: es := by
    obtain ⟨hfault, _⟩ := hs
    cases hexec
    exact ⟨⟨hfault, rfl⟩, rfl, rfl, rfl⟩
  have hsecond := coreStep_of_no_rising (s := t.quiet es) (r := q) ht (hkeys ▸ hheld)
  cases hsecond.symm.trans ((step_eq_coreStep hevents).symm.trans htu)
  exact ⟨ht, ht, hpc, rfl⟩

/-! ### TimerTicks (R72, R73) -/

section Ticks

variable {s t : State}

theorem State.not_running_iff : ¬ s.Running ↔ (s.halted || s.wait) = true := by
  simp [State.halted, State.Running, imp_iff_not_or]

theorem State.timerTick_of_running (hs : s.Running) :
    s.timerTick = { s with dt := countDown s.dt, st := countDown s.st } :=
  if_neg fun h => State.not_running_iff.mpr h hs

theorem State.timerTick_of_not_running (hs : ¬ s.Running) : s.timerTick = s :=
  if_pos (State.not_running_iff.mp hs)

theorem State.ticks_of_running (hs : s.Running) (n : Nat) :
    s.ticks n = { s with dt := countDownBy n s.dt, st := countDownBy n s.st } :=
  if_neg fun h => State.not_running_iff.mpr h hs

theorem State.ticks_of_not_running (hs : ¬ s.Running) (n : Nat) : s.ticks n = s :=
  if_pos (State.not_running_iff.mp hs)

theorem countDownBy_zero (b : Byte) : countDownBy 0 b = b :=
  BitVec.eq_of_toNat_eq (countDownBy_toNat 0 b)

theorem countDownBy_countDown (n : Nat) (b : Byte) : countDownBy n (countDown b) = countDownBy (n + 1) b := by
  apply BitVec.eq_of_toNat_eq
  rw [countDownBy_toNat, countDownBy_toNat, countDown_toNat]
  omega

theorem State.ticks_zero (s : State) : s.ticks 0 = s := by
  by_cases hs : s.Running
  · rw [State.ticks_of_running hs, countDownBy_zero, countDownBy_zero]
  · exact State.ticks_of_not_running hs 0

/-- The first of `n + 1` TimerTicks, then the `n` others. -/
theorem State.ticks_timerTick (n : Nat) (s : State) : s.timerTick.ticks n = s.ticks (n + 1) := by
  by_cases hs : s.Running
  · have htick : s.timerTick.Running := by rw [State.timerTick_of_running hs]; exact hs
    rw [State.ticks_of_running htick, State.ticks_of_running hs, State.timerTick_of_running hs]
    simp only [countDownBy_countDown]
  · rw [State.timerTick_of_not_running hs, State.ticks_of_not_running hs, State.ticks_of_not_running hs]

/-- A TimerTick neither reads nor writes the schedule and `redraw`. -/
theorem State.timerTick_quiet (s : State) (es : List Event) : (s.quiet es).timerTick = s.timerTick.quiet es := by
  by_cases hs : s.Running
  · have hquiet : (s.quiet es).Running := hs
    rw [State.timerTick_of_running hs, State.timerTick_of_running hquiet]
    rfl
  · have hquiet : ¬ (s.quiet es).Running := hs
    rw [State.timerTick_of_not_running hs, State.timerTick_of_not_running hquiet]

theorem step_eq_timerTick {es : List Event} (h : s.events = .timerTick :: es) :
    step s = .next (s.timerTick.quiet es) := by
  rw [← State.timerTick_quiet]
  exact step_scheduled h

/-- A run of `n` TimerTick events and one Step is a Step after `n` ticks. Each event lowers `redraw`. -/
theorem run_timerTicks_step (k : Keys) (r : Byte) (n : Nat) : ∀ s : State,
    s.events = List.replicate n .timerTick ++ [.step k r] →
    Sys2Proof.core.run (n + 1) s = coreStep k r ((s.quiet []).ticks n) := by
  induction n with
  | zero =>
    intro s hs
    rw [run_one, step_eq_coreStep hs, State.ticks_zero]
  | succ n ih =>
    intro s hs
    rw [run_next (step_eq_timerTick hs), ih _ rfl, ← State.ticks_timerTick, State.timerTick_quiet]
    rfl

theorem State.timerTick_timers_le (s : State) :
    s.timerTick.dt.toNat ≤ s.dt.toNat ∧ s.timerTick.st.toNat ≤ s.st.toNat := by
  by_cases hs : s.Running
  · rw [State.timerTick_of_running hs, countDown_toNat, countDown_toNat]
    omega
  · rw [State.timerTick_of_not_running hs]
    exact ⟨le_rfl, le_rfl⟩

theorem State.ticks_timers_le (n : Nat) (s : State) :
    (s.ticks n).dt.toNat ≤ s.dt.toNat ∧ (s.ticks n).st.toNat ≤ s.st.toNat := by
  by_cases hs : s.Running
  · rw [State.ticks_of_running hs, countDownBy_toNat, countDownBy_toNat]
    omega
  · rw [State.ticks_of_not_running hs]
    exact ⟨le_rfl, le_rfl⟩

/-- A Step leaves a timer unless the word it fetches is one whose rule lists that timer. -/
theorem coreStep_timer_same {k : Keys} {r : Byte} {p : Part} (hp : p = .dt ∨ p = .st) (h : coreStep k r s = .next t)
    (hw : ∀ w, s.fetch = some w → ¬ writes (decode w) (s.sample k r) p) : p.Same s t := by
  obtain ⟨_, heq⟩ | ⟨_, _, heq⟩ | ⟨_, _, w, hfetch, heq⟩ | ⟨_, _, _, heq⟩ := coreStep_cases k r s
  · cases heq.symm.trans h
    obtain rfl | rfl := hp <;> rfl
  · cases heq.symm.trans h
    obtain ⟨hdt, hst, _⟩ := State.poll_unchanged s.keys (s.sample k r)
    obtain rfl | rfl := hp
    · exact hdt
    · exact hst
  · have hsame := exec_same_of_not_writes (heq.symm.trans h) (p := p) (by rintro rfl; simp at hp)
      (by rintro a rfl; simp at hp) (hw w hfetch)
    obtain rfl | rfl := hp <;> exact hsame
  · cases heq.symm.trans h
    obtain rfl | rfl := hp <;> rfl

theorem coreStep_dt {k : Keys} {r : Byte} (h : coreStep k r s = .next t)
    (hw : ∀ w x, s.fetch = some w → decode w ≠ .ldDtVx x) : t.dt = s.dt := by
  refine coreStep_timer_same (p := .dt) (.inl rfl) h fun w hfetch hwrites => ?_
  obtain ⟨x, hx⟩ := writes_dt_iff.mp hwrites
  exact hw w x hfetch hx

theorem coreStep_st {k : Keys} {r : Byte} (h : coreStep k r s = .next t)
    (hw : ∀ w x, s.fetch = some w → decode w ≠ .ldStVx x) : t.st = s.st := by
  refine coreStep_timer_same (p := .st) (.inr rfl) h fun w hfetch hwrites => ?_
  obtain ⟨x, hx⟩ := writes_st_iff.mp hwrites
  exact hw w x hfetch hx

end Ticks

/-- Settles O12: while Running both timers count down; in any other condition a TimerTick leaves the state. -/
theorem timerTickCountsDown : Obligations.TimerTickCountsDown := by
  intro s es hes
  refine ⟨_, step_eq_timerTick hes, rfl, rfl, fun hs => ?_, fun hs => ?_⟩
  · rw [State.timerTick_of_running hs]
    refine ⟨countDown_toNat _, countDown_toNat _, ?_⟩
    exact ((ChangesOnly.refl _ s).setTimers (by simp) (by simp)).quiet (by simp) (by simp)
  · rw [State.timerTick_of_not_running hs]
    exact (ChangesOnly.refl _ s).quiet (by simp) (by simp)

/-- Settles O13: the run takes the ticks one event at a time and ends in the same Step. -/
theorem unscheduledStepIsTicksThenStep : Obligations.UnscheduledStepIsTicksThenStep := by
  intro s hes
  rw [run_timerTicks_step _ _ _ _ rfl, step_of_no_event hes]
  simp only [State.quiet, hes]

/-- Settles O14: a tick lowers a timer or leaves it, and a Step leaves it unless it runs the timer's own store. -/
theorem timersNeverIncrease : Obligations.TimersNeverIncrease := by
  intro s t h hreset
  obtain ⟨rom, es, hes, _⟩ | ⟨k, r, es, _, heq⟩ | ⟨es, _, heq⟩ | ⟨_, heq⟩ := nextEvent_cases s
  · exact absurd hes (hreset rom es)
  · have hcore := heq.symm.trans h
    exact ⟨fun hw => (congrArg BitVec.toNat (coreStep_dt hcore hw)).le,
      fun hw => (congrArg BitVec.toNat (coreStep_st hcore hw)).le⟩
  · cases heq.symm.trans h
    obtain ⟨hdt, hst⟩ := State.timerTick_timers_le (s.quiet es)
    exact ⟨fun _ => hdt, fun _ => hst⟩
  · have hcore := heq.symm.trans h
    have hfetch := State.ticks_fetch (Config.ticksBefore s.clock) { s with clock := s.clock + 1, redraw := false }
    obtain ⟨hdt, hst⟩ :=
      State.ticks_timers_le (Config.ticksBefore s.clock) { s with clock := s.clock + 1, redraw := false }
    refine ⟨fun hw => ?_, fun hw => ?_⟩
    · rw [coreStep_dt hcore fun w x hfw => hw w x (hfetch.symm.trans hfw)]
      exact hdt
    · rw [coreStep_st hcore fun w x hfw => hw w x (hfetch.symm.trans hfw)]
      exact hst

/-! ### The redraw pulse (R67) -/

section Redraw

variable {i : Instr} {s t : State}

theorem writes_redraw_iff : writes i s .redraw ↔ i = .cls ∨ ∃ x y n, i = .drw x y n := by
  cases i <;> simp [writes]

/-- An instruction begun with `redraw` down and no fault raises `redraw` exactly when it is a CLS or a DRW that
completes. -/
theorem exec_redraw (hs : s.redraw = false) (hfault : s.fault = .none) (h : exec i s = .next t) :
    t.redraw = true ↔ t.fault = .none ∧ (i = .cls ∨ ∃ x y n, i = .drw x y n) := by
  by_cases hi : i = .cls ∨ ∃ x y n, i = .drw x y n
  · obtain rfl | ⟨x, y, n, rfl⟩ := hi
    · cases h
      simp [hfault]
    · obtain ⟨_, _, _, _, rfl⟩ | ⟨_, rfl⟩ := exec_drw_cases h
      · simp [hfault]
      · simp [hs]
  · have hsame : t.redraw = s.redraw :=
      exec_same_of_not_writes (p := .redraw) h nofun nofun (mt writes_redraw_iff.mp hi)
    simp [hi, hsame, hs]

end Redraw

/-- Settles O15, by the four courses a Step can take: only one that executes a word can raise the pulse. -/
theorem redrawPulse : Obligations.RedrawPulse := by
  intro s t k r es hes h
  rw [step_eq_coreStep hes] at h
  refine ⟨?_, rfl⟩
  obtain ⟨hfault, heq⟩ | ⟨_, hwait, heq⟩ | ⟨hfault, hwait, w, hw, heq⟩ | ⟨_, _, hw, heq⟩ :=
    coreStep_cases k r (s.quiet es)
  · cases heq.symm.trans h
    exact iff_of_false nofun fun ⟨⟨hnone, _⟩, _⟩ => hfault hnone
  · cases heq.symm.trans h
    obtain ⟨_, _, hredraw, _⟩ := State.poll_unchanged (s.quiet es).keys ((s.quiet es).sample k r)
    exact iff_of_false (by rw [hredraw]; nofun) fun ⟨⟨_, hno⟩, _⟩ => nomatch hno.symm.trans hwait
  · rw [exec_redraw (s := (s.quiet es).sample k r) rfl hfault (heq.symm.trans h)]
    constructor
    · rintro ⟨hnone, hi⟩
      exact ⟨⟨hfault, hwait⟩, hnone, w, hw, hi⟩
    · rintro ⟨_, hnone, w', hw', hi⟩
      cases hw.symm.trans hw'
      exact ⟨hnone, hi⟩
  · cases heq.symm.trans h
    exact iff_of_false nofun fun ⟨_, _, w, hfetch, _⟩ => nomatch hw.symm.trans hfetch

/-! ### Placing a word at `pc` (log 6) -/

section ReadyToRun

variable {s : State}

/-- A word stored as its two bytes is read back. -/
theorem Mem.readWord_pokes_bytesOfWord {m : Mem} {a : Nat} (hm : m.wf) (ha : a + 1 < 4096) (w : Word) :
    (m.pokes a (bytesOfWord w)).readWord a = some w := by
  have hlen : a + (bytesOfWord w).length ≤ 4096 := ha
  refine Mem.readWord_eq_some.mpr ⟨ha, ?_⟩
  rw [Mem.peek_pokes hm hlen, Mem.peek_pokes hm hlen, if_pos ⟨le_rfl, by simp [bytesOfWord]⟩,
    if_pos ⟨by omega, by simp [bytesOfWord]⟩]
  simpa [bytesOfWord, wordOfBytes] using (wordOfBytes_bytes w).symm

theorem readyToRun_fetch (hm : s.mem.wf) (w : Word) : (readyToRun s w).fetch = some w := by
  refine Mem.readWord_pokes_bytesOfWord hm ?_ w
  split
  · assumption
  · decide

theorem readyToRun_events (s : State) (w : Word) : ∃ k r es, (readyToRun s w).events = .step k r :: es := by
  simp only [readyToRun]
  split <;> exact ⟨_, _, _, rfl⟩

theorem withFetchWord_toNat (s : State) (w : Word) : s.withFetchWord 16 w.toNat = readyToRun s w := by
  rw [State.withFetchWord, Nat.mod_eq_of_lt w.isLt, BitVec.ofNat_toNat, BitVec.setWidth_eq]

end ReadyToRun

/-- Settles O18: the address it stores at names a word of memory, whatever `pc` was. -/
theorem withFetchWordRunsNext : Obligations.WithFetchWordRunsNext := by
  intro s w hm
  rw [withFetchWord_toNat]
  exact ⟨⟨rfl, rfl⟩, readyToRun_fetch hm w, readyToRun_events s w⟩

/-! ### The fault tables as the checks of the instructions (R142 to R144), and where `pc` goes (R66) -/

section Pc

variable {α : Type} {o : Option α} {f : α → Out} {i : Instr} {s t u : State} {c : FaultCode}

/-- A row of the fault tables is what a check answers, where its condition is that the check finds nothing. -/
theorem ite_fault_eq_elim {p : Prop} [Decidable p] (h : o = none ↔ p) :
    (if p then c else .none) = o.elim c fun _ => FaultCode.none := by
  cases o with
  | none => exact if_pos (h.mp rfl)
  | some a => exact if_neg (h.not.mp nofun)

theorem faultOf_drw (x y : RegIx) (n : BitVec 4) (s : State) :
    faultOf (.drw x y n) s = (s.mem.readBlock s.base n.toNat).elim .outOfRange fun _ => .none :=
  ite_fault_eq_elim (by rw [Mem.readBlock_eq_none, State.base]; omega)

theorem faultOf_ldB (x : RegIx) (s : State) :
    faultOf (.ldB x) s = (s.mem.writeBlock s.base (bcdDigits (s.reg x))).elim .outOfRange fun _ => .none :=
  ite_fault_eq_elim (by rw [Mem.writeBlock_eq_none, bcdDigits_length, State.base]; omega)

theorem faultOf_stRegs (x : RegIx) (s : State) :
    faultOf (.stRegs x) s = (s.mem.writeBlock s.base (s.regsBelow (x.toNat + 1))).elim .outOfRange fun _ => .none :=
  ite_fault_eq_elim (by rw [Mem.writeBlock_eq_none, State.regsBelow_length, State.base]; omega)

theorem faultOf_ldRegs (x : RegIx) (s : State) :
    faultOf (.ldRegs x) s = (s.mem.readBlock s.base (x.toNat + 1)).elim .outOfRange fun _ => .none :=
  ite_fault_eq_elim (by rw [Mem.readBlock_eq_none, State.base]; omega)

theorem faultOf_skp (x : RegIx) (s : State) : faultOf (.skp x) s = (s.keyIndex x).elim .outOfRange fun _ => .none :=
  ite_fault_eq_elim State.keyIndex_eq_none

theorem faultOf_sknp (x : RegIx) (s : State) : faultOf (.sknp x) s = (s.keyIndex x).elim .outOfRange fun _ => .none :=
  ite_fault_eq_elim State.keyIndex_eq_none

/-- An instruction that checks first raises the fault of the tables where its check finds nothing. -/
theorem checked_of_fault (he : exec i s = o.elim (raise c s) f) (ht : faultOf i s = o.elim c fun _ => .none)
    (h : exec i s = .next t) (hf : faultOf i s ≠ .none) : t = { s with fault := faultOf i s } := by
  rw [he] at h
  rw [ht] at hf ⊢
  cases o with
  | none => exact raise_eq_next.mp h
  | some a => exact absurd rfl hf

/-- Where the tables name no fault it goes on with what its check found. -/
theorem checked_of_no_fault (he : exec i s = o.elim (raise c s) f) (ht : faultOf i s = o.elim c fun _ => .none)
    (h : exec i s = .next t) (hf : faultOf i s = .none) (hc : c ≠ .none) : ∃ a, o = some a ∧ f a = .next t := by
  rw [he] at h
  rw [ht] at hf
  cases o with
  | none => exact absurd hf hc
  | some a => exact ⟨a, rfl, h⟩

/-! RET faults exactly where the stack is empty, CALL exactly where it holds 15 addresses (R77, R79). -/

theorem faultOf_ret_eq_none : faultOf .ret s = .none ↔ s.sp ≠ 0#8 := by
  simp [faultOf]

theorem faultOf_call_eq_none {nnn : Addr} (hsp : s.sp.toNat ≤ 15) :
    faultOf (.call nnn) s = .none ↔ s.sp.toNat < 15 := by
  have hfull : s.sp = 15#8 ↔ s.sp.toNat = 15 := BitVec.toNat_eq
  simp only [faultOf, hfull, ite_eq_right_iff, reduceCtorEq, imp_false]
  omega

/-- An instruction for which the tables name a fault latches that fault and changes nothing else (R141). -/
theorem exec_of_fault (hsp : s.sp.toNat ≤ 15) (h : exec i s = .next t) (hf : faultOf i s ≠ .none) :
    t = { s with fault := faultOf i s } := by
  cases i with
  | ret =>
    obtain ⟨j, hj, _⟩ | ⟨hzero, rfl⟩ := exec_ret_cases h
    · exact absurd (faultOf_ret_eq_none.mpr fun hzero => by simp [hzero] at hj) hf
    · rw [faultOf, if_pos hzero]
  | call =>
    obtain ⟨hlt, _⟩ | ⟨hge, rfl⟩ := exec_call_cases h
    · exact absurd ((faultOf_call_eq_none hsp).mpr hlt) hf
    · have hfull : s.sp = 15#8 := BitVec.eq_of_toNat_eq (le_antisymm hsp hge)
      rw [faultOf, if_pos hfull]
  | drw => exact checked_of_fault (exec_drw ..) (faultOf_drw ..) h hf
  | ldB => exact checked_of_fault (exec_ldB ..) (faultOf_ldB ..) h hf
  | stRegs => exact checked_of_fault (exec_stRegs ..) (faultOf_stRegs ..) h hf
  | ldRegs => exact checked_of_fault (exec_ldRegs ..) (faultOf_ldRegs ..) h hf
  | skp => exact checked_of_fault (exec_skp ..) (faultOf_skp ..) h hf
  | sknp => exact checked_of_fault (exec_sknp ..) (faultOf_sknp ..) h hf
  | _ => exact absurd rfl hf

theorem exec_call_of_no_fault {nnn : Addr} (hsp : s.sp.toNat ≤ 15) (h : exec (.call nnn) s = .next t)
    (hf : faultOf (.call nnn) s = .none) :
    t.pc = addrOf nnn ∧ ∀ j : Fin 16, j.val = s.sp.toNat → t.stack[j] = s.pc := by
  have hlt := (faultOf_call_eq_none hsp).mp hf
  obtain ⟨_, rfl⟩ | ⟨hge, _⟩ := exec_call_cases h
  · exact ⟨rfl, fun j hj => by simp [hj]⟩
  · omega

theorem addrOf_toNat (nnn : Addr) : (addrOf nnn).toNat = nnn.toNat :=
  BitVec.toNat_setWidth_of_le (by decide)

theorem toNat_pc_of_fallThrough (h : fallThrough u = .next t) (hpc : u.pc = s.pc) :
    t.pc.toNat = (s.pc.toNat + 2) % 65536 := by
  obtain rfl := fallThrough_eq_next.mp h
  rw [← hpc]
  exact BitVec.toNat_add ..

theorem toNat_pc_of_skipIf {b : Bool} (h : skipIf b u = .next t) :
    t.pc.toNat = if b then (u.pc.toNat + 4) % 65536 else (u.pc.toNat + 2) % 65536 := by
  obtain rfl := skipIf_eq_next.mp h
  cases b <;> exact BitVec.toNat_add ..

theorem State.eq_of_keyIndex {x : RegIx} {k : Nat} (h : s.keyIndex x = some k) : k = (s.reg x).toNat := by
  obtain ⟨_, hk⟩ := Option.ite_none_right_eq_some.mp h
  exact (Option.some.inj hk).symm

/-- An instruction for which the tables name no fault leaves `pc` where the table of R66 says. Those of the last case
only fall through, from a state with the `pc` of `s`. -/
theorem exec_pc_of_no_fault (hsp : s.sp.toNat ≤ 15) (h : exec i s = .next t) (hf : faultOf i s = .none) :
    t.pc.toNat = pcAfter i s := by
  cases i with
  | ret =>
    obtain ⟨j, hj, rfl⟩ | ⟨hzero, _⟩ := exec_ret_cases h
    · simp [pcAfter, hj]
    · exact absurd hzero (faultOf_ret_eq_none.mp hf)
  | jp nnn => cases h; exact addrOf_toNat nnn
  | call nnn =>
    obtain ⟨hpc, _⟩ := exec_call_of_no_fault hsp h hf
    rw [hpc]
    exact addrOf_toNat nnn
  | jpV0 nnn =>
    cases h
    simp [pcAfter, State.regWide, addrOf_toNat]
  | seImm | seReg => exact toNat_pc_of_skipIf h
  | sneImm | sneReg =>
    simp only [pcAfter, skips, ne_eq, decide_not]
    exact toNat_pc_of_skipIf h
  | skp =>
    obtain ⟨k, hk, hnext⟩ := checked_of_no_fault (exec_skp ..) (faultOf_skp ..) h hf nofun
    obtain rfl := State.eq_of_keyIndex hk
    exact toNat_pc_of_skipIf hnext
  | sknp =>
    obtain ⟨k, hk, hnext⟩ := checked_of_no_fault (exec_sknp ..) (faultOf_sknp ..) h hf nofun
    obtain rfl := State.eq_of_keyIndex hk
    exact toNat_pc_of_skipIf hnext
  | ldVxK => cases h; rfl
  | drw =>
    obtain ⟨_, _, hnext⟩ := checked_of_no_fault (exec_drw ..) (faultOf_drw ..) h hf nofun
    exact toNat_pc_of_fallThrough hnext rfl
  | ldB =>
    obtain ⟨_, _, hnext⟩ := checked_of_no_fault (exec_ldB ..) (faultOf_ldB ..) h hf nofun
    exact toNat_pc_of_fallThrough hnext rfl
  | stRegs =>
    obtain ⟨_, _, hnext⟩ := checked_of_no_fault (exec_stRegs ..) (faultOf_stRegs ..) h hf nofun
    exact toNat_pc_of_fallThrough hnext rfl
  | ldRegs =>
    obtain ⟨_, _, hnext⟩ := checked_of_no_fault (exec_ldRegs ..) (faultOf_ldRegs ..) h hf nofun
    exact toNat_pc_of_fallThrough hnext (by rw [State.setRegsFrom_rest])
  | _ => exact toNat_pc_of_fallThrough h rfl

end Pc

/-- Settles O51: with `sp ≤ 15` every instruction answers, by the fault of the tables or by the table of R66. -/
theorem pcFollowsTheTable : Obligations.PcFollowsTheTable := by
  intro i s hsp
  obtain ⟨t, h⟩ := exec_answers i hsp
  refine ⟨t, h, exec_pc_of_no_fault hsp h, fun hf => ?_, ?_⟩
  · rw [exec_of_fault hsp h hf]
  · rintro a rfl hf
    obtain ⟨_, hpush⟩ := exec_call_of_no_fault hsp h hf
    exact hpush

end Sys2Proof.Machine

namespace Sys2Proof.Machine

/-! ### Control transfer: what a jump, a call, a return and a skip do (R75 to R88) -/

section ControlTransfer

variable {s : State} {i : Instr} {nnn : Addr}

/-- A CALL with room on the stack pushes its own address and goes to `nnn` (R79). -/
theorem exec_call_of_lt (h : s.sp.toNat < 15) : exec (.call nnn) s =
    .next { s with stack := s.stack.set s.sp.toNat s.pc (by omega), sp := s.sp + 1#8, pc := addrOf nnn } :=
  dif_pos h

/-- A CALL with 15 return addresses held, or more, raises (R143). -/
theorem exec_call_of_full (h : 15 ≤ s.sp.toNat) : exec (.call nnn) s = raise .stackOverflow s :=
  dif_neg (by omega)

/-- A RET with a slot to pop goes two bytes past the address it holds (R77). -/
theorem exec_ret_of_slot {j : Fin 16} (h : s.sp.toNat = j.val + 1) :
    exec .ret s = .next { s with pc := s.stack[j] + 2#16, sp := s.sp - 1#8 } := by
  have hpos : s.sp ≠ 0#8 := fun hempty => by simp [hempty] at h
  simp [exec, execRet, hpos, h]

/-- A RET with nothing to pop raises (R144). -/
theorem exec_ret_of_empty (h : s.sp = 0#8) : exec .ret s = raise .stackUnderflow s :=
  if_pos h

/-- Counting a pushed address does not wrap below the limit of 15. -/
theorem sp_add_one_toNat {b : Byte} (h : b.toNat < 15) : (b + 1#8).toNat = b.toNat + 1 :=
  BitVec.toNat_add_of_lt (show b.toNat + 1 < 2 ^ 8 by omega)

/-- An instruction that only moves `pc` completes there and changes nothing else. -/
theorem completes_of_advance {n : Word} (h : exec i s = .next (s.advance n)) :
    Completes i s fun t => t.pc = s.pc + n ∧ ChangesOnly (· = .pc) s t :=
  ⟨_, h, rfl, (ChangesOnly.refl _ s).advance rfl⟩

/-- A skip on equality moves `pc` by 4 where the bytes are equal, else by 2 (R80, R82). -/
theorem skipIf_beq (a b : Byte) (s : State) :
    skipIf (a == b) s = .next (s.advance (if a = b then 4#16 else 2#16)) := by
  simp [skipIf]

/-- A skip on inequality, the other way round (R81, R83). -/
theorem skipIf_bne (a b : Byte) (s : State) :
    skipIf (a != b) s = .next (s.advance (if a = b then 2#16 else 4#16)) := by
  simp [skipIf]

end ControlTransfer

/-- Settles O24: the slot the Return pops is the one the Call wrote. -/
theorem callThenReturnResumes : Obligations.CallThenReturnResumes := by
  intro nnn s t u v hlt hcall hsp hstack hret
  obtain ⟨_, rfl⟩ | ⟨hfull, _⟩ := exec_call_cases hcall
  · have hcount : u.sp.toNat = s.sp.toNat + 1 := by rw [hsp]; exact sp_add_one_toNat hlt
    have hslot : u.stack[s.sp.toNat] = s.pc := by rw [hstack]; exact Vector.getElem_set_self _
    rw [exec_ret_of_slot (j := ⟨s.sp.toNat, by omega⟩) hcount] at hret
    cases hret
    exact ⟨congrArg (· + 2#16) hslot, by simp [hsp]⟩
  · omega

/-- Settles O19: a no-op falls through, whatever bits it carries. -/
theorem noOpOnlyAdvances : Obligations.NoOpOnlyAdvances := fun _ =>
  ⟨fun _ => completes_of_advance rfl, fun _ _ _ => completes_of_advance rfl, fun _ _ => completes_of_advance rfl,
    fun _ _ => completes_of_advance rfl⟩

/-- Settles O20: widening `nnn` to 16 bits keeps its value. -/
theorem jumpSetsPc : Obligations.JumpSetsPc := fun nnn s =>
  ⟨decode_encode (i := .jp nnn) rfl, _, rfl, addrOf_toNat nnn, (ChangesOnly.refl _ s).setPc rfl⟩

/-- Settles O21: the greatest address and the greatest byte add up to 0x10FE, so the sum does not wrap. -/
theorem jumpIndexedAddsV0 : Obligations.JumpIndexedAddsV0 := by
  intro nnn s
  have hsum : (addrOf nnn + s.regWide v0).toNat = nnn.toNat + (s.reg v0).toNat := by
    have hnnn := nnn.isLt
    have hv0 := (s.reg v0).isLt
    simp only [State.regWide, BitVec.toNat_add, addrOf_toNat, BitVec.toNat_setWidth]
    omega
  exact ⟨decode_encode (i := .jpV0 nnn) rfl, _, rfl, hsum, addrOf_add_byte_le nnn (s.reg v0),
    (ChangesOnly.refl _ s).setPc rfl⟩

/-- Settles O22: a push below the limit, a fault at it. -/
theorem callPushesItsOwnAddress : Obligations.CallPushesItsOwnAddress := by
  intro nnn s
  refine ⟨decode_encode (i := .call nnn) rfl, fun hlt => ?_,
    fun hfull => raises_of_exec (exec_call_of_full hfull.ge)⟩
  refine ⟨_, exec_call_of_lt hlt, addrOf_toNat nnn, sp_add_one_toNat hlt, fun j hj => by simp [hj], ?_⟩
  exact ((ChangesOnly.refl _ s).setSlot (by omega) (.inr (.inr ⟨_, rfl, rfl⟩))).setPcSp (.inl rfl) (.inr (.inl rfl))

/-- Settles O23: a pop where a slot is held, a fault where none is. -/
theorem returnPopsAndAddsTwo : Obligations.ReturnPopsAndAddsTwo := by
  intro s
  refine ⟨decode_encode (i := .ret) rfl, fun j hj => ?_, fun hempty => raises_of_exec (exec_ret_of_empty hempty)⟩
  have hpop : (s.sp - 1#8).toNat = s.sp.toNat - 1 := BitVec.toNat_sub_of_le (by simp [BitVec.le_def, hj])
  exact ⟨_, exec_ret_of_slot hj, BitVec.toNat_add .., hpop, (ChangesOnly.refl _ s).setPcSp (.inl rfl) (.inr rfl)⟩

/-- Settles O25: the two skips advance `pc` alone, by opposite choices on one comparison. -/
theorem skipsOnImmediate : Obligations.SkipsOnImmediate := fun x kk _ =>
  ⟨decode_encode (i := .seImm x kk) rfl, decode_encode (i := .sneImm x kk) rfl,
    completes_of_advance (skipIf_beq ..), completes_of_advance (skipIf_bne ..)⟩

/-- Settles O26: the low nibble is carried and not read. -/
theorem skipsOnRegister : Obligations.SkipsOnRegister := fun x y n _ =>
  ⟨decode_encode (i := .seReg x y n) rfl, decode_encode (i := .sneReg x y n) rfl,
    completes_of_advance (skipIf_beq ..), completes_of_advance (skipIf_bne ..)⟩

end Sys2Proof.Machine

namespace Sys2Proof.Machine

/-! ### Registers and arithmetic: what a result, with or without a flag, leaves (R90 to R103) -/

section Alu

variable {s : State} {i : Instr} {x : RegIx} {f : Bool} {P Q : State → Prop}

theorem Completes.mono (h : Completes i s P) (hPQ : ∀ t, P t → Q t) : Completes i s Q := by
  obtain ⟨t, hexec, ht⟩ := h
  exact ⟨t, hexec, hPQ t ht⟩

/-- An instruction that writes one register and falls through. -/
theorem completes_of_setReg {b : Byte} (h : exec i s = fallThrough (s.setReg x b)) :
    Completes i s fun t =>
      t.reg x = b ∧ t.pc = s.pc + 2#16 ∧ ChangesOnly (fun p => p = .reg x ∨ p = .pc) s t :=
  ⟨_, h, State.setReg_reg_same s x b, rfl, ((ChangesOnly.refl _ s).setReg (.inl rfl)).advance (.inr rfl)⟩

/-- The flag written last stands whatever the destination; the result stands where the destination is not `VF`. -/
theorem completes_of_setResultThenFlag {r : Byte} (h : exec i s = fallThrough (s.setResultThenFlag x r f)) :
    Completes i s fun t => (x ≠ vF → t.reg x = r) ∧ t.reg vF = flagByte f ∧ t.pc = s.pc + 2#16 ∧
      ChangesOnly (fun p => p = .reg x ∨ p = .reg vF ∨ p = .pc) s t := by
  refine ⟨_, h, fun hx => ?_, ?_, rfl, ?_⟩
  · simp [State.setResultThenFlag_reg, hx]
  · simp [State.setResultThenFlag_reg]
  · exact (((ChangesOnly.refl _ s).setReg (.inl rfl)).setReg (.inr (.inl rfl))).advance (.inr (.inr rfl))

/-- The result written last stands whatever the destination; the flag stands where the destination is not `VF`. -/
theorem completes_of_setFlagThenResult {r : Byte} (h : exec i s = fallThrough (s.setFlagThenResult x r f)) :
    Completes i s fun t => t.reg x = r ∧ (x ≠ vF → t.reg vF = flagByte f) ∧ t.pc = s.pc + 2#16 ∧
      ChangesOnly (fun p => p = .reg x ∨ p = .reg vF ∨ p = .pc) s t := by
  refine ⟨_, h, ?_, fun hx => ?_, rfl, ?_⟩
  · simp [State.setFlagThenResult_reg]
  · simp [State.setFlagThenResult_reg, hx.symm]
  · exact (((ChangesOnly.refl _ s).setReg (.inr (.inl rfl))).setReg (.inl rfl)).advance (.inr (.inr rfl))

/-! The flags as numbers (R96 to R100). -/

theorem flagByte_toNat (f : Bool) : (flagByte f).toNat = f.toNat := by cases f <;> rfl

theorem flagByte_decide_toNat (p : Prop) [Decidable p] : (flagByte (decide p)).toNat = if p then 1 else 0 := by
  rw [flagByte_toNat, Bool.toNat, Bool.cond_decide]

theorem flagByte_carryOut_toNat (a b : Byte) :
    (flagByte (carryOut a b)).toNat = if 256 ≤ a.toNat + b.toNat then 1 else 0 :=
  flagByte_decide_toNat _

theorem flagByte_strictlyGreater_toNat (a b : Byte) :
    (flagByte (strictlyGreater a b)).toNat = if b.toNat < a.toNat then 1 else 0 :=
  flagByte_decide_toNat _

theorem flagByte_lowBit_toNat (a : Byte) : (flagByte (lowBit a)).toNat = a.toNat % 2 := by
  rw [flagByte_toNat, lowBit, BitVec.getLsbD, Nat.toNat_testBit, pow_zero, Nat.div_one]

/-- Bit 7 is what dividing by 128 leaves: nothing stands above it in a byte. -/
theorem flagByte_highBit_toNat (a : Byte) : (flagByte (highBit a)).toNat = a.toNat / 128 := by
  have ha := a.isLt
  rw [flagByte_toNat, highBit, BitVec.getLsbD, Nat.toNat_testBit]
  omega

/-- A difference modulo 256, the borrow added before subtracting (R97, R99). -/
theorem byte_sub_toNat (a b : Byte) : (a - b).toNat = (a.toNat + 256 - b.toNat) % 256 := by
  have hb := b.isLt
  rw [BitVec.toNat_sub]
  omega

/-- A difference of bytes and its strict flag, in whichever order the operands stand: what SUB and SUBN share. -/
theorem completes_of_difference {a b : Byte}
    (h : exec i s = fallThrough (s.setFlagThenResult x (a - b) (strictlyGreater a b))) :
    Completes i s fun t =>
      (t.reg x).toNat = (a.toNat + 256 - b.toNat) % 256 ∧
      (x ≠ vF → (t.reg vF).toNat = if b.toNat < a.toNat then 1 else 0) ∧ t.pc = s.pc + 2#16 ∧
      ChangesOnly (fun p => p = .reg x ∨ p = .reg vF ∨ p = .pc) s t := by
  refine (completes_of_setFlagThenResult h).mono fun t ⟨hx, hflag, hrest⟩ => ⟨?_, fun hne => ?_, hrest⟩
  · rw [hx, byte_sub_toNat]
  · rw [hflag hne, flagByte_strictlyGreater_toNat]

theorem byte_shiftLeft_one_toNat (a : Byte) : (a <<< 1).toNat = a.toNat * 2 % 256 := by
  rw [BitVec.toNat_shiftLeft, Nat.shiftLeft_eq, pow_one]

/-- RND writes the byte in `rndIn`, masked (R102). -/
theorem completes_rnd (x : RegIx) (kk : Byte) (s : State) : Completes (.rnd x kk) s fun t =>
    t.reg x = s.rndIn &&& kk ∧ t.pc = s.pc + 2#16 ∧ ChangesOnly (fun p => p = .reg x ∨ p = .pc) s t :=
  completes_of_setReg rfl

end Alu

/-- Settles O27: each writes one register; the byte that ADD writes is the sum modulo 256. -/
theorem loadsAndAddImmediate : Obligations.LoadsAndAddImmediate := by
  intro x y kk s
  refine ⟨decode_encode (i := .ldImm x kk) rfl, decode_encode (i := .addImm x kk) rfl, completes_of_setReg rfl,
    completes_of_setReg rfl, (completes_of_setReg rfl).mono fun t ⟨hx, hrest⟩ => ⟨?_, hrest⟩⟩
  rw [hx, BitVec.toNat_add]

/-- Settles O28: each writes one register, with the word operator that works on every bit alone. -/
theorem bitwiseLogic : Obligations.BitwiseLogic := by
  intro x y s
  refine ⟨decode_encode (i := .orReg x y) rfl, decode_encode (i := .andReg x y) rfl,
    decode_encode (i := .xorReg x y) rfl, ?_, ?_, ?_⟩
  · exact (completes_of_setReg rfl).mono fun t ⟨hx, hrest⟩ => ⟨fun b => by rw [hx, BitVec.getLsbD_or], hrest⟩
  · exact (completes_of_setReg rfl).mono fun t ⟨hx, hrest⟩ => ⟨fun b => by rw [hx, BitVec.getLsbD_and], hrest⟩
  · exact (completes_of_setReg rfl).mono fun t ⟨hx, hrest⟩ => ⟨fun b => by rw [hx, BitVec.getLsbD_xor], hrest⟩

/-- Settles O29: the sum first, the carry over it. -/
theorem addRegisterWithCarry : Obligations.AddRegisterWithCarry := by
  intro x y s
  refine ⟨decode_encode (i := .addReg x y) rfl, (completes_of_setResultThenFlag rfl).mono ?_⟩
  intro t ⟨hx, hflag, hrest⟩
  refine ⟨fun hne => ?_, ?_, hrest⟩
  · rw [hx hne, BitVec.toNat_add]
  · rw [hflag, flagByte_carryOut_toNat]

/-- Settles O30: SUBN is SUB with the operands exchanged. -/
theorem subtractWithStrictFlag : Obligations.SubtractWithStrictFlag := fun x y _ =>
  ⟨decode_encode (i := .sub x y) rfl, decode_encode (i := .subn x y) rfl, completes_of_difference rfl,
    completes_of_difference rfl⟩

/-- Settles O31: the lost bit is the remainder of the halving, and the carry of the doubling. -/
theorem shiftsByOne : Obligations.ShiftsByOne := by
  intro x y s
  refine ⟨decode_encode (i := .shr x y) rfl, decode_encode (i := .shl x y) rfl, ?_, ?_⟩
  · refine (completes_of_setFlagThenResult rfl).mono fun t ⟨hx, hflag, hrest⟩ => ⟨?_, fun hne => ?_, hrest⟩
    · rw [hx, BitVec.toNat_ushiftRight, Nat.shiftRight_one]
    · rw [hflag hne, flagByte_lowBit_toNat]
  · refine (completes_of_setFlagThenResult rfl).mono fun t ⟨hx, hflag, hrest⟩ => ⟨?_, fun hne => ?_, hrest⟩
    · rw [hx, byte_shiftLeft_one_toNat]
    · rw [hflag hne, flagByte_highBit_toNat]

/-- Settles O32: the Step runs RND on the state that has just sampled `r`. -/
theorem randomIsMaskedInput : Obligations.RandomIsMaskedInput := by
  intro x kk k r es s
  have hdecode : decode (0xC#4 ++ x ++ kk) = .rnd x kk := decode_encode (i := .rnd x kk) rfl
  refine ⟨hdecode, completes_rnd x kk s, fun hs hw hes => ?_⟩
  obtain ⟨t, hexec, hx, _⟩ := completes_rnd x kk ((s.quiet es).sample k r)
  refine ⟨t, ?_, hx⟩
  calc step s = coreStep k r (s.quiet es) := step_eq_coreStep hes
    _ = exec (decode (0xC#4 ++ x ++ kk)) ((s.quiet es).sample k r) := coreStep_of_fetch (s := s.quiet es) hs hw
    _ = .next t := by rw [hdecode, hexec]

end Sys2Proof.Machine

namespace Sys2Proof.Machine

/-! ### Index register and memory: what a write of `I` and a block transfer leave (R110 to R117) -/

section IndexMemory

variable {s t : State} {i : Instr} {x : RegIx} {n : Nat} {bs : List Byte} {P : State → Prop}

theorem Completes.of_exec (hP : Completes i s P) (h : exec i s = .next t) : P t := by
  obtain ⟨u, hu, hPu⟩ := hP
  cases hu.symm.trans h
  exact hPu

/-- An instruction that writes `I` and falls through. -/
theorem completes_of_setI {w : Word} (h : exec i s = fallThrough { s with i := w }) :
    Completes i s fun t => t.i = w ∧ t.pc = s.pc + 2#16 ∧ ChangesOnly (fun p => p = .i ∨ p = .pc) s t :=
  ⟨_, h, rfl, rfl, ((ChangesOnly.refl _ s).setI (.inl rfl)).advance (.inr rfl)⟩

theorem State.regWide_toNat (s : State) (x : RegIx) : (s.regWide x).toNat = (s.reg x).toNat :=
  BitVec.toNat_setWidth_of_le (by decide)

/-- Five times the greatest byte fits in 16 bits (R112). -/
theorem fontAddr_toNat (b : Byte) : (fontAddr b).toNat = b.toNat * 5 := by
  have hb := b.isLt
  simp only [fontAddr, BitVec.toNat_mul, BitVec.toNat_setWidth, BitVec.toNat_ofNat]
  omega

theorem raises_of_check_none {α : Type} {o : Option α} {f : α → Out} {c : FaultCode}
    (h : exec i s = o.elim (raise c s) f) (ho : o = none) : Raises i s c :=
  raises_of_exec (by rw [h, ho]; rfl)

/-- What LD B and LD [I] share: a block of `n + 1` bytes stored from `I` upward, where its last address is in memory. -/
theorem completes_of_store (hm : s.mem.wf) (hlen : bs.length = n + 1) (hin : s.i.toNat + n < 4096)
    (h : exec i s = (s.mem.writeBlock s.base bs).elim (raise .outOfRange s) fun m => fallThrough { s with mem := m }) :
    Completes i s fun t =>
      (∀ k ≤ n, t.mem.peek (s.i.toNat + k) = bs.getD k 0#8) ∧ t.pc = s.pc + 2#16 ∧
      ChangesOnly (fun p => p = .pc ∨ ∃ a, p = .byte a ∧ s.i.toNat ≤ a ∧ a ≤ s.i.toNat + n) s t := by
  have hblock : s.i.toNat + bs.length ≤ 4096 := by omega
  have hstore : s.mem.writeBlock s.base bs = some (s.mem.pokes s.i.toNat bs) := if_pos hblock
  rw [hstore] at h
  refine ⟨_, h, fun k hk => ?_, rfl, ((ChangesOnly.refl _ s).setMem fun a ha => ?_).advance (.inl rfl)⟩
  · show (s.mem.pokes s.i.toNat bs).peek _ = _
    rw [Mem.peek_pokes hm hblock, if_pos (by omega), Nat.add_sub_cancel_left]
  · refine Mem.peek_pokes_of_outside hm hblock fun k hk hak => ha (.inr ⟨a, rfl, ?_⟩)
    omega

/-- LD [I],Vx in range: the byte at `I + r` is `V[r]` (R115, R116). -/
theorem completes_stRegs (hm : s.mem.wf) (hin : s.i.toNat + x.toNat < 4096) :
    Completes (.stRegs x) s fun t =>
      (∀ r : RegIx, r.toNat ≤ x.toNat → t.mem.peek (s.i.toNat + r.toNat) = s.reg r) ∧ t.pc = s.pc + 2#16 ∧
      ChangesOnly (fun p => p = .pc ∨ ∃ a, p = .byte a ∧ s.i.toNat ≤ a ∧ a ≤ s.i.toNat + x.toNat) s t := by
  refine (completes_of_store hm (s.regsBelow_length _) hin (exec_stRegs x s)).mono
    fun t ⟨hpeek, hrest⟩ => ⟨fun r hr => ?_, hrest⟩
  rw [hpeek _ hr, State.regsBelow_getD _ _ _ (Nat.lt_succ_of_le hr), BitVec.ofNat_toNat, BitVec.setWidth_eq]

/-- LD Vx,[I] in range: `V[r]` is the byte at `I + r` (R115, R117). -/
theorem completes_ldRegs (hin : s.i.toNat + x.toNat < 4096) :
    Completes (.ldRegs x) s fun t =>
      (∀ r : RegIx, r.toNat ≤ x.toNat → t.reg r = s.mem.peek (s.i.toNat + r.toNat)) ∧ t.pc = s.pc + 2#16 ∧
      ChangesOnly (fun p => p = .pc ∨ ∃ r : RegIx, p = .reg r ∧ r.toNat ≤ x.toNat) s t := by
  have hread : s.mem.readBlock s.base (x.toNat + 1) = some (s.mem.peeks s.i.toNat (x.toNat + 1)) := if_pos (.inr hin)
  have hlen := Mem.peeks_length s.mem s.i.toNat (x.toNat + 1)
  have hfit : 0 + (s.mem.peeks s.i.toNat (x.toNat + 1)).length ≤ 16 := by have := x.isLt; omega
  refine ⟨_, by rw [exec_ldRegs, hread]; rfl, fun r hr => ?_, ?_,
    ((ChangesOnly.refl _ s).setRegsFrom hfit fun r _ hr => .inr ⟨r, rfl, by omega⟩).advance (.inl rfl)⟩
  · rw [State.advance_reg, State.setRegsFrom_reg _ s 0 hfit, if_pos (by omega), Nat.sub_zero,
      Mem.peeks_getD _ _ _ _ (Nat.lt_succ_of_le hr)]
  · rw [State.setRegsFrom_rest]; rfl

theorem exec_ldRegs_mem (h : exec (.ldRegs x) s = .next t) : t.mem = s.mem := by
  simpa using exec_mem h

end IndexMemory

/-- Settles O37: what the store left at `I + r` is what the load finds there. -/
theorem storeThenLoadRegisters : Obligations.StoreThenLoadRegisters := by
  intro x s t u hm hin h hmem hi
  obtain ⟨hpeek, _, hframe⟩ := (completes_stRegs hm hin).of_exec h
  have hti : t.i = s.i := hframe .i (by simp)
  have hui : u.i = s.i := hi.trans hti
  refine ⟨hti, fun r => hframe (.reg r) (by simp), hpeek, fun a ha => hframe (.byte a) ?_, ?_⟩
  · rintro (hpc | ⟨b, hb, hlo, hhi⟩)
    · cases hpc
    · cases hb
      omega
  · obtain ⟨v, hv, hload, _, hloadFrame⟩ := completes_ldRegs (s := u) (x := x) (by rwa [hui])
    refine ⟨v, hv, hloadFrame .i (by simp), exec_ldRegs_mem hv, fun r hr => ?_,
      fun r hr => hloadFrame (.reg r) (by simpa using hr)⟩
    rw [hload r hr, hmem, hui, hpeek r hr]

/-- Settles O34: the three digits are a block that ends at `I + 2`. -/
theorem storeBcdDigits : Obligations.StoreBcdDigits := by
  intro x s
  refine ⟨decode_encode (i := .ldB x) rfl, fun hm hin => ?_, fun hout => ?_⟩
  · refine (completes_of_store hm (bcdDigits_length _) hin (exec_ldB x s)).mono fun t ⟨hpeek, hrest⟩ => ?_
    have hv := (s.reg x).isLt
    refine ⟨?_, ?_, ?_, hrest⟩
    · rw [← Nat.add_zero s.i.toNat, hpeek 0 (by decide)]
      exact Nat.mod_eq_of_lt (by omega)
    · rw [hpeek 1 (by decide)]
      exact Nat.mod_eq_of_lt (by omega)
    · rw [hpeek 2 le_rfl]
      exact Nat.mod_eq_of_lt (by omega)
  · exact raises_of_check_none (exec_ldB x s) (Mem.writeBlock_eq_none.mpr (Nat.lt_succ_of_le hout))

/-- Settles O35: the registers are a block that ends at `I + x`. -/
theorem storeRegisters : Obligations.StoreRegisters := by
  intro x s
  refine ⟨decode_encode (i := .stRegs x) rfl, completes_stRegs, fun hout => ?_⟩
  refine raises_of_check_none (exec_stRegs x s) (Mem.writeBlock_eq_none.mpr ?_)
  rw [State.regsBelow_length]
  exact Nat.lt_succ_of_le hout

/-- Settles O36: a load checks the same range, and needs nothing of the form of memory. -/
theorem loadRegisters : Obligations.LoadRegisters := fun x s =>
  ⟨decode_encode (i := .ldRegs x) rfl, completes_ldRegs, fun hout =>
    raises_of_check_none (exec_ldRegs x s) (Mem.readBlock_eq_none.mpr ⟨nofun, Nat.lt_succ_of_le hout⟩)⟩

/-- Settles O33: each writes `I` alone; only the sum of ADD I can wrap. -/
theorem indexRegisterWrites : Obligations.IndexRegisterWrites := by
  intro nnn x s
  refine ⟨decode_encode (i := .ldI nnn) rfl, decode_encode (i := .addI x) rfl, decode_encode (i := .ldF x) rfl,
    ?_, ?_, ?_⟩
  · exact (completes_of_setI rfl).mono fun t ⟨hi, hrest⟩ => ⟨by rw [hi, addrOf_toNat], hrest⟩
  · exact (completes_of_setI rfl).mono fun t ⟨hi, hrest⟩ => ⟨by rw [hi, BitVec.toNat_add, State.regWide_toNat], hrest⟩
  · exact (completes_of_setI rfl).mono fun t ⟨hi, hrest⟩ => ⟨by rw [hi, fontAddr_toNat], hrest⟩

end Sys2Proof.Machine

namespace Sys2Proof.Machine

/-! ### Display: what clearing and drawing leave on the screen and in the flag (R120 to R123) -/

section Sprites

variable {s t : State} {x y : RegIx} {n : BitVec 4} {rows : List Byte}

/-- Where every pixel may change, any bitmap may take the place of the old one. -/
theorem ChangesOnly.setScreen {A : Part → Prop} {u : State} {fb : Bitmap} {b : Bool} (h : ChangesOnly A s u)
    (hr : A .redraw) (hall : ∀ q, A (.pixel q)) : ChangesOnly A s { u with fb := fb, redraw := b } :=
  h.setDisplay hr fun q hq => absurd (hall q) hq

/-- Every pixel below 2048 stands at a column and a row of the screen (R120). -/
theorem exists_eq_fbaddr {p : Nat} (hp : p < 2048) : ∃ cx cy, cx < 64 ∧ cy < 32 ∧ p = fbaddr cx cy :=
  ⟨p % 64, p / 64, by omega, by omega, by unfold fbaddr; omega⟩

theorem fb_eq_of_pixel_eq (h : ∀ cx cy, cx < 64 → cy < 32 → t.pixel cx cy = s.pixel cx cy) : t.fb = s.fb := by
  refine Bitmap.ext_pixels _ _ fun p hp => ?_
  obtain ⟨cx, cy, hcx, hcy, rfl⟩ := exists_eq_fbaddr hp
  exact h cx cy hcx hcy

/-- What `spriteBit` reads of a state: memory, `I` and the two coordinate registers. -/
theorem spriteBit_congr (hm : t.mem = s.mem) (hi : t.i = s.i) (hx : t.reg x = s.reg x) (hy : t.reg y = s.reg y) :
    spriteBit t x y n = spriteBit s x y n := by
  funext cx cy
  simp only [spriteBit, hm, hi, hx, hy]

/-- The pixels that DRW toggles, counted row by row, are those on which the sprite has a 1 bit, counted by their
distance from its corner. -/
theorem rowHit_fbaddr (hrows : s.mem.readBlock s.base n.toNat = some rows) {cx cy : Nat} (hcx : cx < 64)
    (hcy : cy < 32) :
    Canvas.rowHit ((s.reg x).toNat % 64) ((s.reg y).toNat % 32) rows (fbaddr cx cy) ↔
      spriteBit s x y n cx cy = true := by
  obtain ⟨_, rfl⟩ := Mem.readBlock_eq_some.mp hrows
  have hn := n.isLt
  simp only [Canvas.rowHit, spriteBit, Bool.and_eq_true, decide_eq_true_eq, Mem.peeks_length, fbaddr_inj]
  constructor
  · rintro ⟨r, c, hr, hc, hbit, hcol, hrow⟩
    have hdc : (cx + 64 - (s.reg x).toNat % 64) % 64 = c := by omega
    have hdr : (cy + 32 - (s.reg y).toNat % 32) % 32 = r := by omega
    rw [Mem.peeks_getD _ _ _ _ hr] at hbit
    rw [hdc, hdr]
    exact ⟨⟨hr, hc⟩, hbit⟩
  · rintro ⟨⟨hr, hc⟩, hbit⟩
    exact ⟨_, _, hr, hc, by rwa [Mem.peeks_getD _ _ _ _ hr], by omega, by omega⟩

/-- A pixel that is on is toggled exactly where one on the screen lies under a 1 bit of the sprite: what the collision
flag of DRW tells (R122). -/
theorem exists_rowHit_iff (hrows : s.mem.readBlock s.base n.toNat = some rows) :
    (∃ q, Canvas.rowHit ((s.reg x).toNat % 64) ((s.reg y).toNat % 32) rows q ∧ s.fb.pixelAt q = true) ↔
      ∃ cx cy, cx < 64 ∧ cy < 32 ∧ s.pixel cx cy = true ∧ spriteBit s x y n cx cy = true := by
  constructor
  · rintro ⟨q, hq, hon⟩
    have hlt : q < 2048 := lt_of_not_ge fun hge => by simp [Bitmap.pixelAt_of_ge _ _ hge] at hon
    obtain ⟨cx, cy, hcx, hcy, rfl⟩ := exists_eq_fbaddr hlt
    exact ⟨cx, cy, hcx, hcy, hon, (rowHit_fbaddr hrows hcx hcy).mp hq⟩
  · rintro ⟨cx, cy, hcx, hcy, hon, hbit⟩
    exact ⟨_, (rowHit_fbaddr hrows hcx hcy).mpr hbit, hon⟩

/-- A sprite is read where its last byte lies in memory, or where it has no byte (R122, decision D24). -/
theorem readBlock_of_sprite_in_range (h : n = 0#4 ∨ s.i.toNat + n.toNat - 1 < 4096) :
    s.mem.readBlock s.base n.toNat = some (s.mem.peeks s.base n.toNat) := by
  refine if_pos (h.imp (fun hn => by rw [hn]; rfl) fun hin => ?_)
  rw [State.base]
  omega

theorem flagByte_eq_one_iff {f : Bool} : flagByte f = 1#8 ↔ f = true := by cases f <;> decide

theorem flagByte_eq_zero_or_one (f : Bool) : flagByte f = 0#8 ∨ flagByte f = 1#8 := by cases f <;> decide

/-- DRW of a sprite that lies in memory: each pixel is XORed with the sprite's bit on it, and `VF` tells whether one
that was on was toggled (R122). -/
theorem completes_drw (hrows : s.mem.readBlock s.base n.toNat = some rows) :
    Completes (.drw x y n) s fun t =>
      (∀ cx cy, cx < 64 → cy < 32 → t.pixel cx cy = (s.pixel cx cy ^^ spriteBit s x y n cx cy)) ∧
      (t.reg vF = 0#8 ∨ t.reg vF = 1#8) ∧
      (t.reg vF = 1#8 ↔ ∃ cx cy, cx < 64 ∧ cy < 32 ∧ s.pixel cx cy = true ∧ spriteBit s x y n cx cy = true) ∧
      t.redraw = true ∧ t.pc = s.pc + 2#16 ∧
      ChangesOnly (fun p => p = .pc ∨ p = .redraw ∨ p = .reg vF ∨ ∃ q, p = .pixel q) s t := by
  have hlen : rows.length < 32 := by
    obtain ⟨_, rfl⟩ := Mem.readBlock_eq_some.mp hrows
    have hn := n.isLt
    rw [Mem.peeks_length]
    omega
  obtain ⟨hpixel, hhit⟩ := Canvas.drawRows_spec ((s.reg x).toNat % 64) rows ((s.reg y).toNat % 32) (s.fb, false) hlen
  refine ⟨_, by rw [exec_drw, hrows]; rfl, fun cx cy hcx hcy => ?_, ?_, ?_, rfl, rfl, ?_⟩
  · refine (hpixel (fbaddr cx cy)).trans ?_
    simp [rowHit_fbaddr hrows hcx hcy, State.pixel]
  · simpa using flagByte_eq_zero_or_one _
  · simp only [State.advance_reg, State.setReg_reg_same, flagByte_eq_one_iff, hhit, Bool.false_eq_true, false_or]
    exact exists_rowHit_iff hrows
  · exact (((ChangesOnly.refl _ s).setScreen (.inr (.inl rfl)) fun q => .inr (.inr (.inr ⟨q, rfl⟩))).setReg
      (.inr (.inr (.inl rfl)))).advance (.inl rfl)

theorem exec_drw_mem (h : exec (.drw x y n) s = .next t) : t.mem = s.mem := by
  simpa using exec_mem h

/-- A DRW that raises no fault found its sprite in memory. -/
theorem readBlock_of_drw_no_fault (h : exec (.drw x y n) s = .next t) (hfault : t.fault = .none) :
    ∃ rows, s.mem.readBlock s.base n.toNat = some rows := by
  obtain ⟨rows, _, hrows, _⟩ | ⟨_, rfl⟩ := exec_drw_cases h
  · exact ⟨rows, hrows⟩
  · cases hfault

end Sprites

/-- Settles O41: the sprite's bytes are one block, checked before it is drawn. -/
theorem drawXorsSprite : Obligations.DrawXorsSprite := by
  intro x y n s
  refine ⟨decode_encode (i := .drw x y n) rfl, fun hin => completes_drw (readBlock_of_sprite_in_range hin),
    fun hn hout => raises_of_check_none (exec_drw x y n s) (Mem.readBlock_eq_none.mpr ?_)⟩
  rw [State.base]
  omega

/-- Settles O42: the second draw has the first one's sprite, so that each pixel is XORed twice with one bit. -/
theorem drawTwiceRestores : Obligations.DrawTwiceRestores := by
  intro x y n s t _ h hfault hx hy
  obtain ⟨rows, hrows⟩ := readBlock_of_drw_no_fault h hfault
  obtain ⟨hpixel, _, _, _, _, hframe⟩ := (completes_drw hrows).of_exec h
  have hm : t.mem = s.mem := exec_drw_mem h
  have hi : t.i = s.i := hframe .i (by simp)
  have hrows' : t.mem.readBlock t.base n.toNat = some rows := by rwa [hm, State.base, hi]
  refine (completes_drw hrows').mono fun u ⟨hpixel', _, hflag, _⟩ => ?_
  rw [spriteBit_congr hm hi hx hy] at hpixel' hflag
  refine ⟨fb_eq_of_pixel_eq fun cx cy hcx hcy => ?_, hflag.trans ⟨?_, ?_⟩⟩
  · rw [hpixel' cx cy hcx hcy, hpixel cx cy hcx hcy, Bool.xor_assoc, Bool.xor_self, Bool.xor_false]
  · rintro ⟨cx, cy, hcx, hcy, hon, hbit⟩
    exact ⟨cx, cy, hcx, hcy, hbit, by simpa [hpixel cx cy hcx hcy, hbit] using hon⟩
  · rintro ⟨cx, cy, hcx, hcy, hbit, hoff⟩
    exact ⟨cx, cy, hcx, hcy, by simp [hpixel cx cy hcx hcy, hbit, hoff], hbit⟩

/-- Settles O40: CLS leaves the blank bitmap, and `VF` in its frame. -/
theorem clearDisplay : Obligations.ClearDisplay := fun s =>
  ⟨decode_encode (i := .cls) rfl, _, rfl, Bitmap.pixelAt_blank, rfl, rfl,
    ((ChangesOnly.refl _ s).setScreen (.inr (.inl rfl)) fun q => .inr (.inr ⟨q, rfl⟩)).advance (.inl rfl)⟩

end Sys2Proof.Machine

namespace Sys2Proof.Machine

/-! ### Keys and timers: the two skips on a key, the wait latch and the timer moves (R130 to R136) -/

section KeysAndTimers

variable {s : State} {x : RegIx}

/-- A byte below 16 names a key (R136). -/
theorem State.keyIndex_of_lt (h : (s.reg x).toNat < 16) : s.keyIndex x = some (s.reg x).toNat :=
  if_pos h

theorem exec_skp_of_lt (h : (s.reg x).toNat < 16) : exec (.skp x) s = skipIf (s.key (s.reg x).toNat) s := by
  rw [exec_skp, State.keyIndex_of_lt h, Option.elim_some]

theorem exec_sknp_of_lt (h : (s.reg x).toNat < 16) : exec (.sknp x) s = skipIf (!s.key (s.reg x).toNat) s := by
  rw [exec_sknp, State.keyIndex_of_lt h, Option.elim_some]

/-- A skip where a condition fails moves `pc` by 2 where it holds, else by 4 (R131). -/
theorem skipIf_not (c : Bool) (s : State) :
    skipIf (!c) s = .next (s.advance (if c = true then 2#16 else 4#16)) := by
  cases c <;> rfl

end KeysAndTimers

/-- Settles O43: a byte below 16 names the key whose level the two skips test, by opposite choices; no other byte names
a key. -/
theorem skipsOnKey : Obligations.SkipsOnKey := by
  intro x s
  refine ⟨decode_encode (i := .skp x) rfl, decode_encode (i := .sknp x) rfl, fun hlt => ⟨?_, ?_⟩, fun hout => ?_⟩
  · exact completes_of_advance (exec_skp_of_lt hlt)
  · exact completes_of_advance ((exec_sknp_of_lt hlt).trans (skipIf_not ..))
  · have hnone : s.keyIndex x = none := State.keyIndex_eq_none.mpr hout
    exact ⟨raises_of_check_none (exec_skp x s) hnone, raises_of_check_none (exec_sknp x s) hnone⟩

/-- Settles O44: the latch and its destination are all that LD Vx,K sets. -/
theorem waitForKeyArmsLatch : Obligations.WaitForKeyArmsLatch := fun x s =>
  ⟨decode_encode (i := .ldVxK x) rfl, _, rfl, rfl, rfl, rfl, (ChangesOnly.refl _ s).setWait (.inl rfl) (.inr rfl)⟩

/-- Settles O46: one part is written before `pc` falls through: a register, DT or ST. -/
theorem timerMoves : Obligations.TimerMoves := by
  intro x s
  refine ⟨decode_encode (i := .ldVxDt x) rfl, decode_encode (i := .ldDtVx x) rfl, decode_encode (i := .ldStVx x) rfl,
    completes_of_setReg rfl, ⟨_, rfl, rfl, rfl, ?_⟩, ⟨_, rfl, rfl, rfl, ?_⟩⟩
  · exact ((ChangesOnly.refl _ s).setDt (.inl rfl)).advance (.inr rfl)
  · exact ((ChangesOnly.refl _ s).setSt (.inl rfl)).advance (.inr rfl)

end Sys2Proof.Machine

namespace Sys2Proof.Machine

/-! ### Exceptions: which fault, with what effect, and the Halted state (R140 to R145) -/

section Exceptions

variable {i : Instr} {s t : State} {k : Keys} {r : Byte}

/-- No rule lists `fault` among its writes: it is latched by raising alone (R8, R21). -/
theorem ne_fault_of_writes {p : Part} (h : writes i s p) : p ≠ .fault := by
  rintro rfl
  cases i <;> simp [writes] at h

/-- An instruction leaves `fault`, or it latches a fault, which with `sp ≤ 15` is that of the tables, and changes
nothing else (R141 to R144). -/
theorem exec_fault_same_or_raises (h : exec i s = .next t) :
    t.fault = s.fault ∨ ∃ c, t = { s with fault := c } ∧ (s.sp.toNat ≤ 15 → faultOf i s = c) ∧ c ≠ .none :=
  (exec_completes_or_raises (A := (· ≠ .fault)) (fun _ => ne_fault_of_writes) nofun h).imp_left
    fun hchanges => hchanges .fault (not_not.mpr rfl)

theorem exec_fault_of_no_fault (hsp : s.sp.toNat ≤ 15) (h : exec i s = .next t) (hf : faultOf i s = .none) :
    t.fault = s.fault := by
  obtain hsame | ⟨c, _, hc, hne⟩ := exec_fault_same_or_raises h
  · exact hsame
  · exact absurd ((hc hsp).symm.trans hf) hne

/-- A poll raises no fault (R70). -/
theorem State.poll_fault (old : Keys) (s : State) : (s.poll old).fault = s.fault := by
  obtain ⟨_, hpoll⟩ | ⟨_, _, _, _, _, hpoll⟩ := State.poll_cases old s
  · rw [hpoll]
  · rw [hpoll]
    rfl

/-- A Step that latches a fault has sampled its inputs and done nothing else, whether it faults at the fetch or in an
instruction; a poll raises none (R61, R141). -/
theorem coreStep_of_latched (hs : s.fault = .none) (h : coreStep k r s = .next t) (ht : t.fault ≠ .none) :
    t = { s.sample k r with fault := t.fault } := by
  obtain ⟨hne, _⟩ | ⟨_, _, heq⟩ | ⟨_, _, w, _, heq⟩ | ⟨_, _, _, heq⟩ := coreStep_cases k r s
  · exact absurd hs hne
  · cases heq.symm.trans h
    exact absurd ((State.poll_fault s.keys (s.sample k r)).trans hs) ht
  · obtain hsame | ⟨_, rfl, _⟩ := exec_fault_same_or_raises (heq.symm.trans h)
    · exact absurd (hsame.trans hs) ht
    · rfl
  · cases heq.symm.trans h
    rfl

theorem State.Halted.not_running (hs : s.Halted) : ¬ s.Running := fun ⟨hnone, _⟩ => hs hnone

/-- A free step of a Halted machine: neither the TimerTicks nor the Step do anything (R69, R72). -/
theorem step_of_halted_of_no_event (hs : s.Halted) (h : s.events = []) :
    step s = .next { s with clock := s.clock + 1, redraw := false } := by
  have hquiet : State.Halted { s with clock := s.clock + 1, redraw := false } := hs
  rw [step_of_no_event h, State.ticks_of_not_running hquiet.not_running]
  exact coreStep_of_halted hquiet

theorem ChangesOnly.setClockRedraw {A : Part → Prop} {u : State} {n : Nat} {b : Bool} (h : ChangesOnly A s u)
    (hclock : A .clock) (hredraw : A .redraw) : ChangesOnly A s { u with clock := n, redraw := b } := by
  intro p hp
  cases p with
  | clock => exact absurd hclock hp
  | redraw => exact absurd hredraw hp
  | _ => exact h _ hp

end Exceptions

/-- Settles O50: with `sp ≤ 15` every instruction answers, and latches the fault of the tables where they name one. -/
theorem faultsAreExactlyTheListed : Obligations.FaultsAreExactlyTheListed := by
  intro i s hsp
  obtain ⟨t, h⟩ := exec_answers i hsp
  refine ⟨t, h, exec_fault_of_no_fault hsp h, fun hf => ?_⟩
  rw [exec_of_fault hsp h hf]
  exact ⟨rfl, changesOnly_fault s _⟩

/-- Settles O52: the Step begins on `s` with its schedule moved on and `redraw` down, and adds the sample and the
fault alone. -/
theorem faultsArePrecise : Obligations.FaultsArePrecise := by
  intro s t k r es hes hs h ht
  rw [step_eq_coreStep hes] at h
  rw [coreStep_of_latched (s := s.quiet es) hs h ht]
  refine ⟨rfl, rfl, rfl, ?_⟩
  exact (((ChangesOnly.refl _ s).quiet (by simp) (by simp)).sample (by simp) (by simp)).setFault (by simp)

/-- Settles O10, event by event: on a Halted machine neither a TimerTick nor a Step does anything, scheduled or free. -/
theorem onlyResetLeavesHalted : Obligations.OnlyResetLeavesHalted := by
  intro s hs hreset
  obtain ⟨rom, es, hes, _⟩ | ⟨k, r, es, hes, _⟩ | ⟨es, hes, _⟩ | ⟨hes, _⟩ := nextEvent_cases s
  · exact absurd hes (hreset rom es)
  · have hcore := coreStep_of_halted (s := s.quiet es) (k := k) (r := r) hs
    exact ⟨_, (step_eq_coreStep hes).trans hcore, (ChangesOnly.refl _ s).quiet (by simp) (by simp)⟩
  · refine ⟨_, step_eq_timerTick hes, ?_⟩
    rw [State.timerTick_of_not_running hs.not_running]
    exact (ChangesOnly.refl _ s).quiet (by simp) (by simp)
  · exact ⟨_, step_of_halted_of_no_event hs hes, (ChangesOnly.refl _ s).setClockRedraw (by simp) (by simp)⟩

end Sys2Proof.Machine

namespace Sys2Proof.Machine

/-! ### Reset, and the end of a run (R160, R161, R172) -/

/-- An image placed at 0x200 lies above the font: below 80 memory reads as the font, outside the image as zero
(R17, R161). -/
theorem Mem.peek_image_progBase (rom : List Byte) (a : Nat) :
    (Mem.image 0x200 rom).peek a =
      if a < 80 then Config.font.getD a 0#8
      else if 0x200 ≤ a ∧ a < 0x200 + rom.length then rom.getD (a - 0x200) 0#8 else 0#8 := by
  rw [Mem.peek_image]
  by_cases ha : a < 80
  · rw [if_neg (by omega), if_pos ha, Mem.initial]
  · rw [if_neg ha, Mem.initial_of_ge a (by omega)]

/-- Settles O17: the answer is the reset state with the image in its memory and the schedule moved on. -/
theorem resetInstallsResetValues : Obligations.ResetInstallsResetValues := by
  intro s rom es hes
  have hstep : step s = doReset rom (s.quiet es) := step_scheduled hes
  obtain ⟨hv, hi, hpc, hsp, hstack, hdt, hst, _, hfb, hkeys, hwait, hdest, hfault⟩ := resetStateValues
  obtain ⟨hfits, heq⟩ | ⟨hover, heq⟩ := doReset_cases rom (s.quiet es)
  · refine ⟨fun _ => ⟨_, hstep.trans heq, hv, hi, hpc, hsp, hstack, hdt, hst, hfb, hkeys, hwait, hdest, hfault, rfl,
      rfl, fun a => ?_⟩, fun hover => absurd hfits (by omega)⟩
    exact Mem.peek_image_progBase rom a
  · exact ⟨fun hfits => absurd hover (by omega), fun _ => hstep.trans heq⟩

section Finished

variable {s : State} {a : Addr} {k : Keys} {r : Byte}

/-- The jump to itself sets `pc` to where it stands, so the Step leaves only its sample (R78, R172). -/
theorem State.FinishedAt.coreStep_eq_sample (hs : s.FinishedAt a) : coreStep k r s = .next (s.sample k r) := by
  obtain ⟨hrun, hpc, hfetch⟩ := hs
  have hdecode : decode (wordNNN 0x1#4 a) = .jp a := decode_encode (i := .jp a) rfl
  calc coreStep k r s
      = exec (.jp a) (s.sample k r) := hdecode ▸ coreStep_of_fetch hrun hfetch
    _ = .next { s.sample k r with pc := addrOf a } := rfl
    _ = .next (s.sample k r) := by rw [← hpc]; rfl

theorem State.FinishedAt.quiet (hs : s.FinishedAt a) (es : List Event) : (s.quiet es).FinishedAt a := hs

theorem State.FinishedAt.sample (hs : s.FinishedAt a) : (s.sample k r).FinishedAt a := hs

theorem State.FinishedAt.timerTick (hs : s.FinishedAt a) : s.timerTick.FinishedAt a := by
  rw [State.timerTick_rest]
  exact hs

theorem State.FinishedAt.ticks (hs : s.FinishedAt a) (n : Nat) : (s.ticks n).FinishedAt a := by
  rw [State.ticks_rest]
  exact hs

end Finished

/-- Settles O56, event by event: a Step adds its sample, a TimerTick lowers the timers, and being finished depends on
neither. -/
theorem finishedStaysFinished : Obligations.FinishedStaysFinished := by
  intro s a hs hreset
  obtain ⟨rom, es, hes, _⟩ | ⟨k, r, es, hes, _⟩ | ⟨es, hes, _⟩ | ⟨hes, _⟩ := nextEvent_cases s
  · exact absurd hes (hreset rom es)
  · refine ⟨_, (step_eq_coreStep hes).trans (hs.quiet es).coreStep_eq_sample, (hs.quiet es).sample,
      fun _ _ _ _ => ?_, fun _ htick => (nomatch hes.symm.trans htick)⟩
    exact ((ChangesOnly.refl _ s).quiet (by simp) (by simp)).sample (by simp) (by simp)
  · refine ⟨_, step_eq_timerTick hes, hs.timerTick.quiet es, fun _ _ _ hstep => (nomatch hes.symm.trans hstep),
      fun _ _ => ?_⟩
    rw [State.timerTick_rest]
    exact ((ChangesOnly.refl _ s).setTimers (by simp) (by simp)).quiet (by simp) (by simp)
  · have hstart : State.FinishedAt { s with clock := s.clock + 1, redraw := false } a := hs
    exact ⟨_, (step_of_no_event hes).trans (hstart.ticks _).coreStep_eq_sample, (hstart.ticks _).sample,
      fun _ _ _ hstep => (nomatch hes.symm.trans hstep), fun _ htick => (nomatch hes.symm.trans htick)⟩

end Sys2Proof.Machine
